-- ==== Sys2Proof/Word.lean ====
section
/-! DEFINITION. The words of the block: bytes, the three wider widths of spec R11, and a record as it travels (R70, R78). -/

namespace Sys2Proof

/-- `u8` or `i8` (R11). -/
abbrev Byte := BitVec 8

/-- `u16` or `i16` (R11). -/
abbrev Word16 := BitVec 16

/-- `u32` or `i32` (R11); the width of the temperature and humidity chains (R130). -/
abbrev Word32 := BitVec 32

/-- `i64` (R11); the width of the pressure chain (R130). -/
abbrev Word64 := BitVec 64

/-- A command or response record in its serialised form: byte k is bits [8k+7 : 8k] (R70, R78). -/
abbrev Record := List Byte

end Sys2Proof
end

