-- ==== Sys2Proof/Config.lean ====
section
/-! DEFINITION. The two named parameters the model takes (spec R9; D13 and D14, both OPEN) and the spec's defaults.
The spec leaves no value of the block undefined, so there is no free value here. -/

namespace Sys2Proof

/-- `HUM_FORM` (R9, R152): how the humidity chain scales. -/
inductive HumForm where
  | div
  | shift
  deriving DecidableEq, Repr

/-- The model's parameters (R9). They are held in `State.config`, so that a statement over every state holds for both
values of each (DESIGN CHOICE, log entry 2). -/
structure Config where
  /-- `H45_MSB_SIGNED`: whether the full byte of H4 and H5 is sign-extended (R120, R121). -/
  h45MsbSigned : Bool
  /-- `HUM_FORM` (R152). -/
  humForm : HumForm
  deriving DecidableEq, Repr

/-- The defaults of R9: `true` and `DIV`. -/
def Config.default : Config := { h45MsbSigned := true, humForm := .div }

end Sys2Proof
end

