-- ==== Sys2Proof/Syntax.lean ====
section
/-! DEFINITION. The commands of CDCE-1 (spec R72, R75), the status codes' names (R200), the response formats (R80-R86) and
the host's assembly lines (R87-R89). -/

namespace Sys2Proof

/-- The block's commands, one constructor per row of the opcode map (R72), with the operands of its format (R75). -/
inductive Instr where
  /-- `DECODE` (R100): FMT_B, a buffer of any length. -/
  | decode (buf : List Byte)
  /-- `COMPT` (R136): FMT_T. -/
  | compt (rawT : Word32)
  /-- `COMPP` (R141): FMT_P. -/
  | compp (tFine rawP : Word32)
  /-- `COMPH` (R151): FMT_H. -/
  | comph (tFine : Word32) (rawH : Word16)
  /-- `UNPACK` (R180): FMT_B, a buffer of any length. -/
  | unpack (buf : List Byte)
  deriving DecidableEq, Repr

/-- The operation a command byte selects (R72). -/
inductive Op where
  | decode | compt | compp | comph | unpack
  deriving DecidableEq, Repr

/-- Why a record is not a command (R70, R76; I7): it is refused before the block sees it. -/
inductive Malformed where
  /-- The record has no command byte (R70). -/
  | emptyRecord
  /-- A fixed-format record of the wrong length, given in bytes (R76). -/
  | wrongLength (op : Op) (bytes : Nat)
  deriving DecidableEq, Repr

/-- What a record is: a command, a reserved command byte with any rest (R73), or not a command (R76). -/
inductive Decoded where
  | command (i : Instr)
  | reserved
  | notACommand (why : Malformed)
  deriving DecidableEq, Repr

/-- The status codes by name (R200). -/
inductive Status where
  | ok
  | invalidCalibrationLength
  | notCalibrated
  | invalidBurstLength
  | reservedOperation
  deriving DecidableEq, Repr

/-- The response formats (R81-R86). -/
inductive ResponseFormat where
  | rspDecode | rspT | rspP | rspH | rspU | rspErr
  deriving DecidableEq, Repr

/-- A host-side name (R88), as its characters. -/
abbrev HostName := List Char

/-- An operand of an assembly line: a number, or a name bound by an earlier line (R87, R88). -/
inductive Operand where
  | number (v : Int)
  | name (n : HostName)
  deriving DecidableEq, Repr

/-- The first word of an assembly line (R87, R89). -/
inductive Verb where
  | decode | compt | compp | comph | unpack | cmd | measure
  deriving DecidableEq, Repr

/-- One assembly line: `verb operands -> binds` (R87, R88). -/
structure AsmLine where
  verb     : Verb
  operands : List Operand
  binds    : List HostName
  deriving DecidableEq, Repr

end Sys2Proof
end

