-- ==== Sys2Proof/WellFormed.lean ====
section
/-! DEFINITION. Which terms are well formed: commands (spec R50, R77), records (R70, R76) and assembly operands (R87, I8). -/

namespace Sys2Proof

/-- Every command term is well formed: a buffer may have any length (R50) and every 32-bit or 16-bit operand value is legal
(R77, D18). The operands' types carry the widths, so nothing is left to check. -/
def Instr.wellFormed : Instr → Bool
  | .decode _ => true
  | .compt _ => true
  | .compp _ _ => true
  | .comph _ _ => true
  | .unpack _ => true

/-- Length in bytes of a fixed-format command (R75, R76); `none` where the framing gives it. -/
def Op.fixedBytes : Op → Option Nat
  | .decode => none
  | .compt => some 5
  | .compp => some 9
  | .comph => some 7
  | .unpack => none

/-- An assembly operand fits `u8` (R87). -/
def fitsU8 (v : Int) : Bool := decide (0 ≤ v ∧ v ≤ 255)

/-- An assembly operand fits `u16` (R87). -/
def fitsU16 (v : Int) : Bool := decide (0 ≤ v ∧ v ≤ 65535)

/-- An assembly operand fits `i32` (R87). -/
def fitsI32 (v : Int) : Bool := decide (-2147483648 ≤ v ∧ v ≤ 2147483647)

/-- A line's operand numbers have the count and ranges of R87 (and R89's eight bytes). -/
def Verb.operandsFit : Verb → List Int → Bool
  | .decode, vs => vs.all fitsU8
  | .unpack, vs => vs.all fitsU8
  | .compt, [v] => fitsI32 v
  | .compt, _ => false
  | .compp, [t, p] => fitsI32 t && fitsI32 p
  | .compp, _ => false
  | .comph, [t, h] => fitsI32 t && fitsU16 h
  | .comph, _ => false
  | .cmd, [] => false
  | .cmd, v :: vs => fitsU8 v && vs.all fitsU8
  | .measure, vs => decide (vs.length = 8) && vs.all fitsU8

end Sys2Proof
end

