-- ==== Sys2Proof/Decode.lean ====
section
/-! DEFINITION. The command encoding of spec 30_encoding.md: the command byte (R71-R74), the formats (R75-R77) and their
serialisation (R78); a total decoder, the encoder, and the opcode table's numbering. -/

namespace Sys2Proof

/-! ## Little-endian fields of a record (R78) -/

/-- Two bytes of a record as a 16-bit field, least significant first (R78, R54). -/
def word16 (b0 b1 : Byte) : Word16 := b1 ++ b0

/-- Four bytes of a record as a 32-bit field, least significant first (R78). -/
def word32 (b0 b1 b2 b3 : Byte) : Word32 := (b3 ++ b2 ++ b1 ++ b0 : BitVec (8 + 8 + 8 + 8))

/-- Byte k of a value: bits [8k+7 : 8k] (R78). -/
def byteOf {w : Nat} (v : BitVec w) (k : Nat) : Byte := v.extractLsb' (8 * k) 8

/-- A 16-bit field as it is sent (R78). -/
def bytes16 (v : Word16) : Record := [byteOf v 0, byteOf v 1]

/-- A 32-bit field as it is sent (R78). -/
def bytes32 (v : Word32) : Record := [byteOf v 0, byteOf v 1, byteOf v 2, byteOf v 3]

/-! ## The command byte -/

/-- Field OP, bits 2:0 (R71). -/
def opField (b : Byte) : BitVec 3 := b.extractLsb' 0 3

/-- Field RSV, bits 7:3 (R71). -/
def rsvField (b : Byte) : BitVec 5 := b.extractLsb' 3 5

/-- The operation of an OP field (R72); 0b101, 0b110 and 0b111 select none (R73). -/
def opOfField (f : BitVec 3) : Option Op :=
  if f = 0b000 then some .decode
  else if f = 0b001 then some .compt
  else if f = 0b010 then some .compp
  else if f = 0b011 then some .comph
  else if f = 0b100 then some .unpack
  else none

/-- The operation a command byte selects: RSV must be 0 (R71-R73). -/
def opOf (b : Byte) : Option Op := if rsvField b = 0 then opOfField (opField b) else none

/-- The command byte of an operation (R72). -/
def Op.commandByte : Op → Byte
  | .decode => 0x00
  | .compt => 0x01
  | .compp => 0x02
  | .comph => 0x03
  | .unpack => 0x04

/-! ## Decoding -/

/-- FMT_T: RAW_T in bits 39:8 (R75, R77). -/
def decodeFmtT : Record → Option Instr
  | [b0, b1, b2, b3] => some (.compt (word32 b0 b1 b2 b3))
  | _ => none

/-- FMT_P: T_FINE in bits 39:8, RAW_P in bits 71:40 (R75, R77). -/
def decodeFmtP : Record → Option Instr
  | [b0, b1, b2, b3, b4, b5, b6, b7] => some (.compp (word32 b0 b1 b2 b3) (word32 b4 b5 b6 b7))
  | _ => none

/-- FMT_H: T_FINE in bits 39:8, RAW_H in bits 55:40 (R75, R77). -/
def decodeFmtH : Record → Option Instr
  | [b0, b1, b2, b3, b4, b5] => some (.comph (word32 b0 b1 b2 b3) (word16 b4 b5))
  | _ => none

/-- The operand part of a record for an operation. FMT_B takes every length: the framing is the length (R76). -/
def decodeOperands : Op → Record → Option Instr
  | .decode, rest => some (.decode rest)
  | .compt, rest => decodeFmtT rest
  | .compp, rest => decodeFmtP rest
  | .comph, rest => decodeFmtH rest
  | .unpack, rest => some (.unpack rest)

/-- What a record is. Total on every byte string: a command (R72, R75), a reserved command byte with any rest (R73), or not a
command, refused by name (R76). -/
def decodeRecord : Record → Decoded
  | [] => .notACommand .emptyRecord
  | b :: rest =>
    match opOf b with
    | none => .reserved
    | some op =>
      match decodeOperands op rest with
      | some i => .command i
      | none => .notACommand (.wrongLength op (rest.length + 1))

/-! ## Encoding -/

/-- The operation of a command. -/
def Instr.op : Instr → Op
  | .decode _ => .decode
  | .compt _ => .compt
  | .compp _ _ => .compp
  | .comph _ _ => .comph
  | .unpack _ => .unpack

/-- The operand part of a command's record (R75, R78). -/
def Instr.operandBytes : Instr → Record
  | .decode buf => buf
  | .compt rawT => bytes32 rawT
  | .compp tFine rawP => bytes32 tFine ++ bytes32 rawP
  | .comph tFine rawH => bytes32 tFine ++ bytes16 rawH
  | .unpack buf => buf

/-- A command's record: the command byte, then the operands (R71, R75, R78). -/
def encode (i : Instr) : Record := i.op.commandByte :: i.operandBytes

/-! ## The opcode table's numbering

The table numbers a record's bits as R10 and R78 do, so its word is the record read as one little-endian number. -/

/-- The low n bytes of a number, least significant first (R78). -/
def leBytes : Nat → Nat → Record
  | 0, _ => []
  | n + 1, w => BitVec.ofNat 8 w :: leBytes n (w / 256)

/-- The length in bytes a row's record has when it is padded: the fixed length of its format, or command byte and the buffer
length the row's command takes (42 and 8: R8); a reserved byte stands alone. (DESIGN CHOICE, log entry 8.) -/
def rowBytes (b : Byte) : Nat :=
  match opOf b with
  | some .decode => 43
  | some .compt => 5
  | some .compp => 9
  | some .comph => 7
  | some .unpack => 9
  | none => 1

/-- A record with zero bytes added up to its row's length. -/
def padRow : Record → Record
  | [] => []
  | b :: rest => b :: (rest ++ List.replicate (rowBytes b - (rest.length + 1)) 0)

/-- The record of a table word: its bytes in the order they travel, then the operand bytes the table gives no bits, as
zeros. -/
def tableRecord (nbits w : Nat) : Record := padRow (leBytes ((nbits + 7) / 8) w)

/-- The command the decoder reads from a table word, if it reads one. -/
def decodeTableWord (nbits w : Nat) : Option Instr :=
  match decodeRecord (tableRecord nbits w) with
  | .command i => some i
  | .reserved => none
  | .notACommand _ => none

end Sys2Proof
end

