-- ==== Sys2Proof/Machine/State.lean ====
section
/-! DEFINITION. The state of the block as plain data: CALIB_VALID and the coefficient store (spec R30, R31), the model's
parameters (R9), and the command interface as seen from the block (R70, R230); the state after reset; the names a step
stops under. -/

namespace Sys2Proof.Machine

/-- The coefficient store, 18 registers in the order and widths of R31. A register holds the coefficient's bit pattern; the
chains read it as the type R31 gives (R134). -/
structure Coeffs where
  /-- u16 -/
  t1 : Word16
  /-- i16 -/
  t2 : Word16
  /-- i16 -/
  t3 : Word16
  /-- u16 -/
  p1 : Word16
  /-- i16 -/
  p2 : Word16
  /-- i16 -/
  p3 : Word16
  /-- i16 -/
  p4 : Word16
  /-- i16 -/
  p5 : Word16
  /-- i16 -/
  p6 : Word16
  /-- i16 -/
  p7 : Word16
  /-- i16 -/
  p8 : Word16
  /-- i16 -/
  p9 : Word16
  /-- u8 -/
  h1 : Byte
  /-- i16 -/
  h2 : Word16
  /-- u8 -/
  h3 : Byte
  /-- i16 -/
  h4 : Word16
  /-- i16 -/
  h5 : Word16
  /-- i8 -/
  h6 : Byte
  deriving DecidableEq, Repr

/-- R40's view of the block state: `Uninit` carries no coefficients. `State.store` computes it; every command reads the
coefficients through it. -/
inductive Store where
  | uninit
  | ready (c : Coeffs)
  deriving DecidableEq, Repr

/-- What the host can do to the block between commands: issue a command record (R70) or assert the reset input (R230). -/
inductive HostInput where
  | command (r : Record)
  | reset
  deriving DecidableEq, Repr

/-- The machine. `calibValid` and `coeffs` are the whole state of the block (R36, R40); `config` holds the model's
parameters (R9, log entry 2); `pending` and `responses` are the command interface (R70, log entry 1). -/
structure State where
  /-- CALIB_VALID (R30): false is Uninitialized, true is Ready. -/
  calibValid : Bool
  /-- The coefficient store (R31). -/
  coeffs : Coeffs
  /-- H45_MSB_SIGNED and HUM_FORM (R9). No step changes them. -/
  config : Config
  /-- Inputs the host has issued and the block has not taken yet, in issue order (R63, R70). -/
  pending : List HostInput
  /-- Response records handed to the host, oldest first (R70). No command reads them (R36). -/
  responses : List Record
  deriving DecidableEq, Repr

/-- The block has no fault: an error is a status in the response and the machine goes on (R204), and no command can fail to
complete (93_implementation_defined.md: "stuck: not used"). So no step raises one. -/
inductive Fault where
  deriving DecidableEq, Repr

/-- The names a step stops under without a meaning. -/
inductive Refusal where
  /-- Raised by an arm of `exec` whose instruction has no meaning yet; safe. No arm of this model raises it. -/
  | notModelled (mnemonic : String)
  /-- Raised by `step` for a record that is not a command (R76, I7: "a tool refuses it before the block sees it"); safe. -/
  | notACommand (why : Malformed)
  deriving DecidableEq, Repr

/-- The registers before any DECODE. The spec gives none a reset value (R31, R230); 0 is the model's value (DESIGN CHOICE,
unsafe, log entry 3). No command reads them while CALIB_VALID is 0. -/
def Coeffs.unwritten : Coeffs :=
  { t1 := 0, t2 := 0, t3 := 0, p1 := 0, p2 := 0, p3 := 0, p4 := 0, p5 := 0, p6 := 0, p7 := 0, p8 := 0, p9 := 0,
    h1 := 0, h2 := 0, h3 := 0, h4 := 0, h5 := 0, h6 := 0 }

/-- The machine right after reset (R230): CALIB_VALID = 0, nothing issued, nothing answered, the defaults of R9. -/
def State.reset : State :=
  { calibValid := false, coeffs := Coeffs.unwritten, config := Config.default, pending := [], responses := [] }

end Sys2Proof.Machine
end

