-- ==== Sys2Proof/Machine/Arith.lean ====
section
/-! DEFINITION. The arithmetic primitives of spec R12 that `BitVec` does not name itself. `+`, `-` and `*` on `BitVec` are
R12's wrapping operators. -/

namespace Sys2Proof.Machine

/-- `a << k`: `a *N 2^k`, losing the bits shifted out (R12). -/
def shl {w : Nat} (a : BitVec w) (k : Nat) : BitVec w := a <<< k

/-- `a >>a k`: arithmetic right shift, floor(a / 2^k) (R12, R132). -/
def sar {w : Nat} (a : BitVec w) (k : Nat) : BitVec w := a.sshiftRight k

/-- `a /t b`: division truncating toward zero, then wrapping; -2^63 / -1 gives -2^63 (R12, R133, R149). The spec never
divides by 0 (R133). -/
def divT {w : Nat} (a b : BitVec w) : BitVec w := a.sdiv b

/-- `clamp(v, lo, hi)` on signed values (R12). -/
def clampS {w : Nat} (v lo hi : BitVec w) : BitVec w :=
  if v.slt lo then lo else if hi.slt v then hi else v

/-- `min(a, b)` on signed values (R12). -/
def minS {w : Nat} (a b : BitVec w) : BitVec w := if b.slt a then b else a

/-- `sext_32` (R11). -/
def sext32 {w : Nat} (v : BitVec w) : Word32 := v.signExtend 32

/-- `zext_32` (R11). -/
def zext32 {w : Nat} (v : BitVec w) : Word32 := v.setWidth 32

/-- `sext_64` (R11). -/
def sext64 {w : Nat} (v : BitVec w) : Word64 := v.signExtend 64

/-- `zext_64` (R11). -/
def zext64 {w : Nat} (v : BitVec w) : Word64 := v.setWidth 64

end Sys2Proof.Machine
end

