-- ==== Sys2Proof/Machine/Operands.lean ====
section
/-! DEFINITION. Reading an operand buffer (spec R13, R50-R57) and the field extractions of R104. -/

namespace Sys2Proof.Machine

/-- `buf[i]` (R13). Every reader checks the buffer's length first (R50), so the 0 for an offset that does not exist is
never read (log entry 7). -/
def bufByte (buf : List Byte) (i : Nat) : Byte := buf.getD i 0

/-- `u16le(o)`: a little-endian pair (R54, R104). -/
def u16le (buf : List Byte) (o : Nat) : Word16 := word16 (bufByte buf o) (bufByte buf (o + 1))

/-- `s16le(o)` (R104): the same 16-bit pattern; the chains read it as i16 by `sext` (R134). -/
def s16le (buf : List Byte) (o : Nat) : Word16 := u16le buf o

/-- Low nibble, bits 3:0 (R15). -/
def lowNibble (b : Byte) : BitVec 4 := b.extractLsb' 0 4

/-- High nibble, bits 7:4, unsigned (R15, R121, C6). -/
def highNibble (b : Byte) : BitVec 4 := b.extractLsb' 4 4

/-- `E(b)`: the full byte of H4 or H5 extended to 16 bits (R104). -/
def extendMsb (cfg : Config) (b : Byte) : Word16 :=
  if cfg.h45MsbSigned then b.signExtend 16 else b.setWidth 16

/-- `((E(full) << 4) | zext_16(nibble))[15:0]` (R120, R121). -/
def packNibble (cfg : Config) (full : Byte) (nibble : BitVec 4) : Word16 :=
  shl (extendMsb cfg full) 4 ||| nibble.setWidth 16

/-- A 20-bit reading `{hi, mid, lo[7:4]}` zero-extended to 32 bits (R180, R55). -/
def reading20 (hi mid lo : Byte) : Word32 := (hi ++ mid ++ highNibble lo : BitVec (8 + 8 + 4)).setWidth 32

/-- A 16-bit reading `{hi, lo}` (R180, R55). -/
def reading16 (hi lo : Byte) : Word16 := hi ++ lo

end Sys2Proof.Machine
end

