-- ==== Sys2Proof/Machine/Flags.lean ====
section
/-! DEFINITION. The block has no condition flags (spec R36). What stands in their place is the status of a response: its
codes (R200) and the lengths the checks compare with (R8). -/

namespace Sys2Proof.Machine

/-- The code of a status, bits [7:0] of a response (R200, R80). -/
def statusCode : Status → Byte
  | .ok => 0x00
  | .invalidCalibrationLength => 0x01
  | .notCalibrated => 0x02
  | .invalidBurstLength => 0x03
  | .reservedOperation => 0x04

/-- CALIB_LEN (R8). -/
def calibLen : Nat := 42

/-- BURST_LEN (R8). -/
def burstLen : Nat := 8

end Sys2Proof.Machine
end

