-- ==== Sys2Proof/Machine/Responses.lean ====
section
/-! DEFINITION. The response records of spec R80-R86, serialised by R78. -/

namespace Sys2Proof.Machine

/-- Length of a response in bytes (R81-R86). -/
def responseBytes : ResponseFormat → Nat
  | .rspDecode => 37
  | .rspT => 9
  | .rspP => 5
  | .rspH => 5
  | .rspU => 11
  | .rspErr => 1

/-- An error response: the status, and every other field 0 (R80, R201). -/
def errorRecord (f : ResponseFormat) (e : Status) : Record :=
  statusCode e :: List.replicate (responseBytes f - 1) 0

/-- The 18 coefficients as 16-bit patterns in R31's order: H1 and H3 zero-extended, H6 sign-extended (R81). -/
def coeffPatterns (c : Coeffs) : List Word16 :=
  [c.t1, c.t2, c.t3, c.p1, c.p2, c.p3, c.p4, c.p5, c.p6, c.p7, c.p8, c.p9,
   c.h1.setWidth 16, c.h2, c.h3.setWidth 16, c.h4, c.h5, c.h6.signExtend 16]

/-- RSP_DECODE (R81): coefficient k in bits [16k+23 : 16k+8]. -/
def decodeResponse (c : Coeffs) : Record := statusCode .ok :: (coeffPatterns c).flatMap bytes16

/-- RSP_T (R82): TEMP in bits 39:8, T_FINE in bits 71:40. -/
def temperatureResponse (temp tFine : Word32) : Record := statusCode .ok :: (bytes32 temp ++ bytes32 tFine)

/-- RSP_P (R83): PRES in bits 39:8. -/
def pressureResponse (pres : Word32) : Record := statusCode .ok :: bytes32 pres

/-- RSP_H (R84): HUM in bits 39:8. -/
def humidityResponse (hum : Word32) : Record := statusCode .ok :: bytes32 hum

/-- RSP_U (R85): RAW_P in bits 39:8, RAW_T in bits 71:40, RAW_H in bits 87:72. -/
def unpackResponse (rawP rawT : Word32) (rawH : Word16) : Record :=
  statusCode .ok :: (bytes32 rawP ++ bytes32 rawT ++ bytes16 rawH)

end Sys2Proof.Machine
end

