-- ==== Sys2Proof/Machine/Ops.lean ====
section
/-! DEFINITION. The named operations over the state: reading and writing the store (spec R30-R33, R40), delivering a
response (R70), raising an error (R204), and taking a host input (R63, R70, R230). -/

namespace Sys2Proof.Machine

/-- R40's view: `Ready(c)` iff CALIB_VALID is 1. The only reader of the coefficient registers, so an unwritten register is
never read (R33). -/
def State.store (s : State) : Store := if s.calibValid then .ready s.coeffs else .uninit

/-- `State <- Ready(c)`: all 18 registers and CALIB_VALID in one step (R32, R100). -/
def State.loadStore (s : State) (c : Coeffs) : State := { s with calibValid := true, coeffs := c }

/-- Hand a response record to the host (R70). -/
def State.deliver (s : State) (r : Record) : State := { s with responses := s.responses ++ [r] }

/-- `raise E`: the error response of the command's format, and no block state written (R14, R204). This is all of the
block's exception mechanism: it has no trap entry and no return from one (R206, R207). -/
def State.raiseError (s : State) (f : ResponseFormat) (e : Status) : State := s.deliver (errorRecord f e)

/-- The answer to a reserved command byte (R73, R86). -/
def State.answerReserved (s : State) : State := s.raiseError .rspErr .reservedOperation

/-- The reset input puts the block in `Uninit` (R230). The parameters, the inputs still to come and the responses the host
already has are not state of the block and stay (log entry 4). -/
def State.assertReset (s : State) : State := { s with calibValid := false, coeffs := Coeffs.unwritten }

/-- The oldest input the host has issued and the block has not taken (R63). -/
def State.takeInput (s : State) : Option (HostInput × State) :=
  match s.pending with
  | [] => none
  | x :: rest => some (x, { s with pending := rest })

/-- The block with nothing issued to it waits unchanged (DESIGN CHOICE, log entry 5). -/
def State.idle (s : State) : State := s

/-- The host issues a record to be performed next (R70). -/
def State.issueNext (s : State) (r : Record) : State := { s with pending := .command r :: s.pending }

end Sys2Proof.Machine
end

