-- ==== Sys2Proof/Machine/CoefficientDecoder.lean ====
section
/-! DEFINITION. The Coefficient Decoder: DECODE (spec R100-R125). -/

namespace Sys2Proof.Machine

/-- The 18 coefficients of a 42-byte calibration buffer, field by field (R105-R122). -/
def coeffsOfBuffer (cfg : Config) (buf : List Byte) : Coeffs :=
  { t1 := u16le buf 0
    t2 := s16le buf 2
    t3 := s16le buf 4
    p1 := u16le buf 6
    p2 := s16le buf 8
    p3 := s16le buf 10
    p4 := s16le buf 12
    p5 := s16le buf 14
    p6 := s16le buf 16
    p7 := s16le buf 18
    p8 := s16le buf 20
    p9 := s16le buf 22
    h1 := bufByte buf 25
    h2 := s16le buf 26
    h3 := bufByte buf 28
    h4 := packNibble cfg (bufByte buf 29) (lowNibble (bufByte buf 30))
    h5 := packNibble cfg (bufByte buf 31) (highNibble (bufByte buf 30))
    h6 := bufByte buf 32 }

/-- DECODE (R100): the length check first (R101), then all 18 registers and CALIB_VALID in one step; a wrong length writes
nothing (R102). -/
def execDecode (buf : List Byte) (s : State) : Host.Outcome State Fault Refusal :=
  if buf.length = calibLen then
    .next ((s.loadStore (coeffsOfBuffer s.config buf)).deliver (decodeResponse (coeffsOfBuffer s.config buf)))
  else
    .next (s.raiseError .rspDecode .invalidCalibrationLength)

/-- `encode(c)` of R125, which the spec defines for tests only: the 42-byte buffer of a coefficient set, with `fill24` at
offset 24 and `fill33` at offsets 33-41. -/
def encodeCoeffs (c : Coeffs) (fill24 : Byte) (fill33 : List Byte) : List Byte :=
  [c.t1, c.t2, c.t3, c.p1, c.p2, c.p3, c.p4, c.p5, c.p6, c.p7, c.p8, c.p9].flatMap bytes16
    ++ [fill24, c.h1] ++ bytes16 c.h2
    ++ [c.h3, c.h4.extractLsb' 4 8, c.h5.extractLsb' 0 4 ++ c.h4.extractLsb' 0 4, c.h5.extractLsb' 4 8, c.h6]
    ++ fill33

end Sys2Proof.Machine
end

