-- ==== Sys2Proof/Machine/Humidity.lean ====
section
/-! DEFINITION. Humidity compensation: COMPH (spec R151-R157), in i32 (R130). -/

namespace Sys2Proof.Machine

/-- `SCALE(v, k)` (R152): truncating division by 2^k, or arithmetic shift. -/
def scale (f : HumForm) (v : Word32) (k : Nat) : Word32 :=
  match f with
  | .div => divT v (shl 1 k)
  | .shift => sar v k

/-- `x` (R153). -/
def humOffset (tFine : Word32) : Word32 := tFine - 76800

/-- The first `v5` (R153): the scaled reading. -/
def humReading (f : HumForm) (c : Coeffs) (x : Word32) (rawH : Word16) : Word32 :=
  scale f (zext32 rawH * 16384 - sext32 c.h4 * 1048576 - sext32 c.h5 * x + 16384) 15

/-- `h` (R153), by way of `e`, `f` and `g`. -/
def humGain (f : HumForm) (c : Coeffs) (x : Word32) : Word32 :=
  let e := scale f (x * sext32 c.h6) 10
  let d := scale f (x * zext32 c.h3) 11
  let g := scale f (e * (d + 32768)) 10 + 2097152
  scale f (g * sext32 c.h2 + 8192) 14

/-- The last `v5` of R153, from `v3`, by way of `q` and `v4`. -/
def humLinearise (f : HumForm) (c : Coeffs) (v3 : Word32) : Word32 :=
  let q := scale f v3 15
  let v4 := scale f (q * q) 7
  v3 - scale f (v4 * zext32 c.h1) 4

/-- The chain of R153: `v3` is the product of the scaled reading and the gain. -/
def humChain (f : HumForm) (c : Coeffs) (tFine : Word32) (rawH : Word16) : Word32 :=
  humLinearise f c (humReading f c (humOffset tFine) rawH * humGain f c (humOffset tFine))

/-- The clamps and the division by 4096 (R155). -/
def humOutput (v5 : Word32) : Word32 := minS (divT (clampS v5 0 419430400) 4096) 102400

/-- COMPH (R151). -/
def execComph (tFine : Word32) (rawH : Word16) (s : State) : Host.Outcome State Fault Refusal :=
  match s.store with
  | .uninit => .next (s.raiseError .rspH .notCalibrated)
  | .ready c => .next (s.deliver (humidityResponse (humOutput (humChain s.config.humForm c tFine rawH))))

end Sys2Proof.Machine
end

