-- ==== Sys2Proof/Machine/Pressure.lean ====
section
/-! DEFINITION. Pressure compensation: COMPP (spec R141-R150), in i64 (R130). -/

namespace Sys2Proof.Machine

/-- Offset of the fine-value (R142). -/
def presOffset (tFine : Word32) : Word64 := sext64 tFine - 128000

/-- Second term (R143), from the value of R142. -/
def presTerm2 (c : Coeffs) (v1 : Word64) : Word64 :=
  v1 * v1 * sext64 c.p6 + shl (v1 * sext64 c.p5) 17 + shl (sext64 c.p4) 35

/-- First term (R144), from the value of R142. -/
def presTerm1 (c : Coeffs) (v1 : Word64) : Word64 :=
  sar (v1 * v1 * sext64 c.p3) 8 + shl (v1 * sext64 c.p2) 12

/-- The normalization term (R145), from the value of R144. -/
def presNorm (c : Coeffs) (v1 : Word64) : Word64 := sar ((shl 1 47 + v1) * zext64 c.p1) 33

/-- The division (R147), from the values of R145 and R143; reached only when `v1` is not 0. -/
def presQuotient (v1 v2 : Word64) (rawP : Word32) : Word64 :=
  divT ((shl (1048576 - sext64 rawP) 31 - v2) * 3125) v1

/-- The final terms and the i64 result (R148), from the value of R147. -/
def presFinal (c : Coeffs) (p : Word64) : Word64 :=
  sar (p + sar (sext64 c.p9 * sar p 13 * sar p 13) 25 + sar (sext64 c.p8 * p) 19) 8 + shl (sext64 c.p7) 4

/-- PRES from the values of R145 and R143 (R146-R148): 0 when the normalization term is 0, else the low 32 bits of the i64
result. -/
def presResult (c : Coeffs) (norm v2 : Word64) (rawP : Word32) : Word32 :=
  if norm = 0 then 0 else (presFinal c (presQuotient norm v2 rawP)).setWidth 32

/-- PRES (R142-R148). -/
def presOutput (c : Coeffs) (tFine rawP : Word32) : Word32 :=
  presResult c (presNorm c (presTerm1 c (presOffset tFine))) (presTerm2 c (presOffset tFine)) rawP

/-- COMPP (R141). -/
def execCompp (tFine rawP : Word32) (s : State) : Host.Outcome State Fault Refusal :=
  match s.store with
  | .uninit => .next (s.raiseError .rspP .notCalibrated)
  | .ready c => .next (s.deliver (pressureResponse (presOutput c tFine rawP)))

end Sys2Proof.Machine
end

