-- ==== Sys2Proof/Machine/Temperature.lean ====
section
/-! DEFINITION. Temperature compensation: COMPT (spec R136-R140), in i32 (R130). -/

namespace Sys2Proof.Machine

/-- First correction term (R137). -/
def tempTerm1 (c : Coeffs) (rawT : Word32) : Word32 :=
  sar ((sar rawT 3 - shl (zext32 c.t1) 1) * sext32 c.t2) 11

/-- `d` of the second correction term (R138). -/
def tempDelta (c : Coeffs) (rawT : Word32) : Word32 := sar rawT 4 - zext32 c.t1

/-- Second correction term (R138). -/
def tempTerm2 (c : Coeffs) (rawT : Word32) : Word32 :=
  sar (sar (tempDelta c rawT * tempDelta c rawT) 12 * sext32 c.t3) 14

/-- The fine-value (R139). -/
def tempFine (c : Coeffs) (rawT : Word32) : Word32 := tempTerm1 c rawT + tempTerm2 c rawT

/-- TEMP from the fine-value, in hundredths of a degree Celsius; no clamp (R139, D30). -/
def tempOutput (tFine : Word32) : Word32 := sar (tFine * 5 + 128) 8

/-- COMPT (R136). -/
def execCompt (rawT : Word32) (s : State) : Host.Outcome State Fault Refusal :=
  match s.store with
  | .uninit => .next (s.raiseError .rspT .notCalibrated)
  | .ready c => .next (s.deliver (temperatureResponse (tempOutput (tempFine c rawT)) (tempFine c rawT)))

end Sys2Proof.Machine
end

