-- ==== Sys2Proof/Machine/Unpacker.lean ====
section
/-! DEFINITION. The Raw Reading Unpacker: UNPACK (spec R180-R183). -/

namespace Sys2Proof.Machine

/-- RAW_P, burst bytes 0-2 (R180). -/
def burstPressure (buf : List Byte) : Word32 := reading20 (bufByte buf 0) (bufByte buf 1) (bufByte buf 2)

/-- RAW_T, burst bytes 3-5 (R180). -/
def burstTemperature (buf : List Byte) : Word32 := reading20 (bufByte buf 3) (bufByte buf 4) (bufByte buf 5)

/-- RAW_H, burst bytes 6-7 (R180). -/
def burstHumidity (buf : List Byte) : Word16 := reading16 (bufByte buf 6) (bufByte buf 7)

/-- UNPACK (R180): the length check first (R181); it does not read CALIB_VALID (D19). -/
def execUnpack (buf : List Byte) (s : State) : Host.Outcome State Fault Refusal :=
  if buf.length = burstLen then
    .next (s.deliver (unpackResponse (burstPressure buf) (burstTemperature buf) (burstHumidity buf)))
  else
    .next (s.raiseError .rspU .invalidBurstLength)

end Sys2Proof.Machine
end

