-- ==== Sys2Proof/Machine/Dispatch.lean ====
section
/-! DEFINITION. One arm per command (spec R72). -/

namespace Sys2Proof.Machine

def exec (i : Instr) (s : State) : Host.Outcome State Fault Refusal :=
  match i with
  | .decode buf => Sys2Proof.Machine.execDecode buf s
  | .compt rawT => Sys2Proof.Machine.execCompt rawT s
  | .compp tFine rawP => Sys2Proof.Machine.execCompp tFine rawP s
  | .comph tFine rawH => Sys2Proof.Machine.execComph tFine rawH s
  | .unpack buf => Sys2Proof.Machine.execUnpack buf s

end Sys2Proof.Machine
end

