-- ==== Sys2Proof/Machine/Step.lean ====
section
/-! DEFINITION. One step: the block takes the host's next input and performs it whole (spec R37, R63, R70). -/

namespace Sys2Proof.Machine

/-- A step takes the oldest input the host has issued. A command runs; a reserved command byte is answered (R73); a record
that is no command is refused before the block sees it (R76); the reset input resets the block (R230); with nothing issued
the block waits. -/
def step (s : State) : Host.Outcome State Fault Refusal :=
  match s.takeInput with
  | none => .next s.idle
  | some (.reset, s') => .next s'.assertReset
  | some (.command r, s') =>
    match decodeRecord r with
    | .command i => exec i s'
    | .reserved => .next s'.answerReserved
    | .notACommand why => .refused (.notACommand why)

/-- The state with a table word's record issued as the block's next input. -/
def State.withFetchWord (s : State) (nbits w : Nat) : State := s.issueNext (tableRecord nbits w)

end Sys2Proof.Machine
end

