-- ==== Sys2Proof/Machine/Assembler.lean ====
section
/-! DEFINITION. The host's assembler: from text to lines (spec R87), from lines to command records, with the refusals of R87
and R88, and disassembly (R90). The block sees only the records. -/

namespace Sys2Proof.Machine

/-- Why the assembler refuses a line. -/
inductive AsmError where
  /-- The text is no assembly line (R87). -/
  | badText
  /-- Wrong number of operands, or one outside its type (R87, I8). -/
  | operandOutOfType
  /-- A name that is not bound (R88, I8). -/
  | unboundName (n : HostName)
  /-- More names than the response has result fields, or not the three names of `measure` (R88, R89). -/
  | wrongNames
  /-- `measure` is four commands, not one record (R89). -/
  | notOneRecord
  deriving DecidableEq, Repr

/-! ## Lines to records -/

/-- An operand's number (R88). Names that differ in the case of a letter are different names (DESIGN CHOICE, log entry 9:
R87 makes only mnemonics case-insensitive). -/
def resolveOperand (names : List (HostName × Int)) : Operand → Except AsmError Int
  | .number v => .ok v
  | .name n =>
    match names.lookup n with
    | some v => .ok v
    | none => .error (.unboundName n)

/-- All operands' numbers, the first unbound name refusing the line. -/
def resolveOperands (names : List (HostName × Int)) : List Operand → Except AsmError (List Int)
  | [] => .ok []
  | o :: os =>
    match resolveOperand names o with
    | .error e => .error e
    | .ok v =>
      match resolveOperands names os with
      | .error e => .error e
      | .ok vs => .ok (v :: vs)

/-- Numbers as the bytes they fit. -/
def asBytes (vs : List Int) : List Byte := vs.map (BitVec.ofInt 8)

/-- The record of a line whose operands are numbers (R87): the command's encoding, or the bytes of `.cmd` as they stand. -/
def lineRecord (v : Verb) (vs : List Int) : Except AsmError Record :=
  if v.operandsFit vs then
    match v, vs with
    | .decode, vs => .ok (encode (.decode (asBytes vs)))
    | .unpack, vs => .ok (encode (.unpack (asBytes vs)))
    | .compt, [r] => .ok (encode (.compt (BitVec.ofInt 32 r)))
    | .compp, [t, p] => .ok (encode (.compp (BitVec.ofInt 32 t) (BitVec.ofInt 32 p)))
    | .comph, [t, h] => .ok (encode (.comph (BitVec.ofInt 32 t) (BitVec.ofInt 16 h)))
    | .cmd, vs => .ok (asBytes vs)
    | .measure, _ => .error .notOneRecord
    | _, _ => .error .operandOutOfType
  else .error .operandOutOfType

/-! ## Disassembly (R90) -/

/-- Bytes as operands. -/
def byteOperands (bs : List Byte) : List Operand := bs.map fun b => .number b.toNat

/-- A command as a line without names. -/
def instrLine : Instr → AsmLine
  | .decode buf => { verb := .decode, operands := byteOperands buf, binds := [] }
  | .compt rawT => { verb := .compt, operands := [.number rawT.toInt], binds := [] }
  | .compp tFine rawP => { verb := .compp, operands := [.number tFine.toInt, .number rawP.toInt], binds := [] }
  | .comph tFine rawH => { verb := .comph, operands := [.number tFine.toInt, .number rawH.toNat], binds := [] }
  | .unpack buf => { verb := .unpack, operands := byteOperands buf, binds := [] }

/-- Disassembly (R90): a reserved command byte prints as `.cmd` and the record's bytes; what is not a command has no line
(DESIGN CHOICE, log entry 15). -/
def disassemble (r : Record) : Option AsmLine :=
  match decodeRecord r with
  | .command i => some (instrLine i)
  | .reserved => some { verb := .cmd, operands := byteOperands r, binds := [] }
  | .notACommand _ => none

/-! ## Text (R87) -/

/-- The pieces of a line. -/
inductive Token where
  | word (w : List Char)
  | comma
  | arrow
  deriving DecidableEq, Repr

/-- A word read backwards, put before the tokens that follow it. -/
def flushWord (cur : List Char) (ts : List Token) : List Token :=
  if cur.isEmpty then ts else .word cur.reverse :: ts

/-- The tokens of a line; `;` starts a comment (R87). Where white space may stand, and that an arrow ends a word, is log entry
9's (DESIGN CHOICE). `cur` is the word being read, backwards. -/
def lexLine (cur : List Char) : List Char → List Token
  | [] => flushWord cur []
  | '-' :: '>' :: cs => flushWord cur (.arrow :: lexLine [] cs)
  | c :: cs =>
    if c = ';' then flushWord cur []
    else if c = ',' then flushWord cur (.comma :: lexLine [] cs)
    else if c.isWhitespace then flushWord cur (lexLine [] cs)
    else lexLine (c :: cur) cs

/-- Words separated by commas, at least one. -/
def wordList : List Token → Option (List (List Char))
  | [.word w] => some [w]
  | .word w :: .comma :: ts => (wordList ts).map (w :: ·)
  | _ => none

/-- The value of a digit, decimal or hexadecimal. -/
def digitValue (c : Char) : Option Nat :=
  if '0' ≤ c ∧ c ≤ '9' then some (c.toNat - 48)
  else if 'a' ≤ c ∧ c ≤ 'f' then some (c.toNat - 87)
  else if 'A' ≤ c ∧ c ≤ 'F' then some (c.toNat - 55)
  else none

/-- Digits in a base, most significant first; `acc` is the number read so far. -/
def digitsValue (base acc : Nat) : List Char → Option Nat
  | [] => some acc
  | c :: cs =>
    match digitValue c with
    | none => none
    | some d => if d < base then digitsValue base (acc * base + d) cs else none

/-- A number: decimal, optionally negative, or `0x` hexadecimal (R87). Leading zeros are allowed, hexadecimal digits may be
capitals, and the prefix is a small x without a sign (DESIGN CHOICE, log entry 9). -/
def numberOf : List Char → Option Int
  | '0' :: 'x' :: c :: cs => (digitsValue 16 0 (c :: cs)).map Int.ofNat
  | '-' :: c :: cs => (digitsValue 10 0 (c :: cs)).map fun n => -Int.ofNat n
  | c :: cs => (digitsValue 10 0 (c :: cs)).map Int.ofNat
  | [] => none

/-- A name's spelling: a letter, then letters, digits and underscores (DESIGN CHOICE, log entry 9). -/
def isHostName : List Char → Bool
  | [] => false
  | c :: cs => c.isAlpha && cs.all fun d => d.isAlphanum || d == '_'

/-- An operand's text. -/
def operandOf (w : List Char) : Option Operand :=
  match numberOf w with
  | some v => some (.number v)
  | none => if isHostName w then some (.name w) else none

/-- The spelling of a verb (R87, R89). -/
def verbText : Verb → List Char
  | .decode => ['d', 'e', 'c', 'o', 'd', 'e']
  | .compt => ['c', 'o', 'm', 'p', 't']
  | .compp => ['c', 'o', 'm', 'p', 'p']
  | .comph => ['c', 'o', 'm', 'p', 'h']
  | .unpack => ['u', 'n', 'p', 'a', 'c', 'k']
  | .cmd => ['.', 'c', 'm', 'd']
  | .measure => ['m', 'e', 'a', 's', 'u', 'r', 'e']

/-- A verb's text, in capitals or not (R87: "mnemonics are case-insensitive"). That `.cmd` and `measure`, which R87 does not
count among the mnemonics, may be in capitals too is the model's choice (DESIGN CHOICE, log entry 9). -/
def verbOf (w : List Char) : Option Verb :=
  [Verb.decode, .compt, .compp, .comph, .unpack, .cmd, .measure].find? fun v => verbText v == w.map Char.toLower

/-- The tokens before and after the arrow, if there is one. -/
def splitArrow : List Token → List Token × Option (List Token)
  | [] => ([], none)
  | .arrow :: ts => ([], some ts)
  | t :: ts => (t :: (splitArrow ts).1, (splitArrow ts).2)

/-- The operands' text; none at all is allowed (R87: n ≥ 0 bytes). -/
def operandList : List Token → Option (List Operand)
  | [] => some []
  | ts => (wordList ts).bind fun ws => ws.mapM operandOf

/-- The names after the arrow (R88). -/
def bindList : Option (List Token) → Option (List HostName)
  | none => some []
  | some ts => (wordList ts).bind fun ws => if ws.all isHostName then some ws else none

/-- A line of text (R87, R88): a line or a refusal. A line with no command, blank or a comment alone, is accepted as nothing:
R87 is silent on it (DESIGN CHOICE, log entry 9). -/
def parseLine (text : List Char) : Except AsmError (Option AsmLine) :=
  match lexLine [] text with
  | [] => .ok none
  | .word w :: ts =>
    match verbOf w, operandList (splitArrow ts).1, bindList (splitArrow ts).2 with
    | some v, some os, some bs => .ok (some { verb := v, operands := os, binds := bs })
    | _, _, _ => .error .badText
  | .comma :: _ => .error .badText
  | .arrow :: _ => .error .badText

/-- A number in decimal: R87 admits decimal and `0x`, and R90 names no base (DESIGN CHOICE, log entry 15). -/
def numberText (v : Int) : List Char :=
  if v < 0 then '-' :: Nat.toDigits 10 v.natAbs else Nat.toDigits 10 v.natAbs

/-- An operand's text. -/
def operandText : Operand → List Char
  | .number v => numberText v
  | .name n => n

/-- Words with a comma and a space between them (the space: DESIGN CHOICE, log entry 15). -/
def commaText (ws : List (List Char)) : List Char := List.intercalate [',', ' '] ws

/-- A line's text (R87, R88, R90), the mnemonic in small letters (DESIGN CHOICE, log entry 15). -/
def lineText (l : AsmLine) : List Char :=
  verbText l.verb
    ++ (if l.operands.isEmpty then [] else ' ' :: commaText (l.operands.map operandText))
    ++ (if l.binds.isEmpty then [] else [' ', '-', '>', ' '] ++ commaText l.binds)

end Sys2Proof.Machine
end

