-- ==== Sys2Proof/Machine/HostProgram.lean ====
section
/-! DEFINITION. The host side of spec R88, R89 and R231: issuing lines to the block one at a time, binding names to result
fields, the pseudo-command `measure`, and where the calibration buffer comes from. -/

namespace Sys2Proof.Machine

/-- What the host keeps beside the block: the names it has bound (R88). -/
structure Session where
  block : State
  names : List (HostName × Int)
  deriving DecidableEq, Repr

/-- Why a session stops. -/
inductive HostStop where
  /-- The assembler refuses the line (R87, R88). -/
  | refusedLine (e : AsmError)
  /-- The record is not a command (R76), so the block never sees it. -/
  | refusedRecord (r : Refusal)
  deriving DecidableEq, Repr

/-- Two bytes of a response as a 16-bit field. -/
def respWord16 (r : Record) (off : Nat) : Word16 := word16 (r.getD off 0) (r.getD (off + 1) 0)

/-- Four bytes of a response as a 32-bit field. -/
def respWord32 (r : Record) (off : Nat) : Word32 :=
  word32 (r.getD off 0) (r.getD (off + 1) 0) (r.getD (off + 2) 0) (r.getD (off + 3) 0)

/-- The index of each u16 or u8 coefficient in R31's order: T1, P1, H1, H3. -/
def unsignedCoeffs : List Nat := [0, 3, 12, 14]

/-- Coefficient k of a DECODE response as the number of its type in R31. R81 gives a 16-bit pattern and R88 does not say how a
bound one is read: T3's 0xFC18 binds -1000, not 64536 (DESIGN CHOICE, log entry 9). -/
def coeffField (r : Record) (k : Nat) : Int :=
  if unsignedCoeffs.contains k then ((respWord16 r (2 * k + 1)).toNat : Int) else (respWord16 r (2 * k + 1)).toInt

/-- The result fields of a response, in the order of R81-R85 (R88): as numbers of the types R82-R85 give them, and for DECODE
as `coeffField` reads them. -/
def resultFields : Op → Record → List Int
  | .decode, r => (List.range 18).map (coeffField r)
  | .compt, r => [(respWord32 r 1).toInt, (respWord32 r 5).toInt]
  | .compp, r => [((respWord32 r 1).toNat : Int)]
  | .comph, r => [((respWord32 r 1).toNat : Int)]
  | .unpack, r => [(respWord32 r 1).toInt, (respWord32 r 5).toInt, ((respWord16 r 9).toNat : Int)]

/-- The result fields of the response to a command record; a reserved command byte's response has none (R86). The fields go
by the record, so a `.cmd` line that spells a command may bind names too (DESIGN CHOICE, log entry 9). -/
def recordFields (cmd resp : Record) : List Int :=
  match cmd with
  | [] => []
  | b :: _ =>
    match opOf b with
    | some op => resultFields op resp
    | none => []

/-- The names with these taken out. -/
def dropNames (names : List (HostName × Int)) (gone : List HostName) : List (HostName × Int) :=
  names.filter fun p => !gone.contains p.1

/-- The host issues a record, the block performs it and answers (R70). A session's block has nothing else issued to it; were
there an input pending, the record would stand before it (log entry 1). -/
def issueRecord (s : State) (r : Record) : Except HostStop (State × Record) :=
  match step (s.issueNext r) with
  | .next t => .ok (t, t.responses.getLastD [])
  | .refused why => .error (.refusedRecord why)
  | .fault f => nomatch f

/-- One line that is one command (R87, R88). Names are bound only where STATUS is 0x00; a failed binding leaves its names
unbound. A name given twice after one arrow takes the later field, and a name bound again by a later line takes that line's
(DESIGN CHOICE, log entry 9: R88 speaks of neither). The Bool says whether STATUS was 0x00. -/
def runCommandLine (h : Session) (l : AsmLine) : Except HostStop (Session × Bool) :=
  match resolveOperands h.names l.operands with
  | .error e => .error (.refusedLine e)
  | .ok vs =>
    match lineRecord l.verb vs with
    | .error e => .error (.refusedLine e)
    | .ok r =>
      if (recordFields r []).length < l.binds.length then .error (.refusedLine .wrongNames)
      else
        match issueRecord h.block r with
        | .error e => .error e
        | .ok (t, resp) =>
          if resp.head? = some (statusCode .ok) then
            .ok ({ block := t, names := (l.binds.zip (recordFields r resp)).reverse ++ h.names }, true)
          else .ok ({ block := t, names := dropNames h.names l.binds }, false)

/-- The names between the commands of `measure`: R89's rp, rt, rh and tf, spelled with a `%`, which begins no host name, so
they meet no name of the host's (DESIGN CHOICE, log entry 9). -/
def measureNames : List HostName := [['%', 'r', 'p'], ['%', 'r', 't'], ['%', 'r', 'h'], ['%', 't', 'f']]

/-- The four commands of `measure` (R89). -/
def measureLines (bytes : List Operand) (t p h : HostName) : List AsmLine :=
  [ { verb := .unpack, operands := bytes, binds := [['%', 'r', 'p'], ['%', 'r', 't'], ['%', 'r', 'h']] },
    { verb := .compt, operands := [.name ['%', 'r', 't']], binds := [t, ['%', 't', 'f']] },
    { verb := .compp, operands := [.name ['%', 't', 'f'], .name ['%', 'r', 'p']], binds := [p] },
    { verb := .comph, operands := [.name ['%', 't', 'f'], .name ['%', 'r', 'h']], binds := [h] } ]

/-- Lines in order, stopping at the first response whose STATUS is not 0x00 (R89). -/
def runUntilError (h : Session) : List AsmLine → Except HostStop (Session × Bool)
  | [] => .ok (h, true)
  | l :: ls =>
    match runCommandLine h l with
    | .error e => .error e
    | .ok (h', true) => runUntilError h' ls
    | .ok (h', false) => .ok (h', false)

/-- `measure b0, ..., b7 -> T, P, H` (R89): all three names are bound, or none. Two of the three may be the same name, which
then takes the later value (DESIGN CHOICE, log entry 9). -/
def runMeasure (h : Session) (l : AsmLine) : Except HostStop (Session × Bool) :=
  match resolveOperands h.names l.operands with
  | .error e => .error (.refusedLine e)
  | .ok vs =>
    if Verb.operandsFit .measure vs then
      match l.binds with
      | [t, p, hm] =>
        match runUntilError h (measureLines (vs.map .number) t p hm) with
        | .error e => .error e
        | .ok (h', true) =>
          .ok ({ block := h'.block, names := dropNames h'.names measureNames }, true)
        | .ok (h', false) => .ok ({ block := h'.block, names := dropNames h.names [t, p, hm] }, false)
      | _ => .error (.refusedLine .wrongNames)
    else .error (.refusedLine .operandOutOfType)

/-- One line, a command or `measure`. -/
def runLine (h : Session) (l : AsmLine) : Except HostStop (Session × Bool) :=
  match l.verb with
  | .measure => runMeasure h l
  | .decode => runCommandLine h l
  | .compt => runCommandLine h l
  | .compp => runCommandLine h l
  | .comph => runCommandLine h l
  | .unpack => runCommandLine h l
  | .cmd => runCommandLine h l

/-- Lines in order. After a line whose response is an error, and after a `measure` that stopped at one, the next line runs; a
refused line stops the program (DESIGN CHOICE, log entry 9: R204 has the block accept the next command, but no rule says
whether the host issues it, R89's "the host stops" being said of the `measure`, nor what follows a refused line). -/
def runLines (h : Session) : List AsmLine → Except HostStop Session
  | [] => .ok h
  | l :: ls =>
    match runLine h l with
    | .error e => .error e
    | .ok (h', _) => runLines h' ls

/-- The calibration buffer: the 26 bytes at Calib00, then the 16 at Calib26 (R231). -/
def calibrationBuffer (calib00 calib26 : List Byte) : List Byte := calib00 ++ calib26

/-- The sensor register a calibration byte is read from (R51; context only). -/
def calibrationRegister (offset : Nat) : Nat := if offset < 26 then 0x88 + offset else 0xE1 + (offset - 26)

/-- The sensor register a burst byte is read from (R52; context only). -/
def burstRegister (i : Nat) : Nat := 0xF7 + i

end Sys2Proof.Machine
end

