-- ==== Sys2Proof/Machine/IntegerForm.lean ====
section
/-! DEFINITION. The compensation chains once more, over the integers, as spec R12 words the arithmetic: every result is
computed exactly, then reduced to the chain's width and read back as signed. Claims compare the machine's words with these
integers. No part of the machine uses them. -/

namespace Sys2Proof.Machine

/-- Reduce to N bits and read back as signed (R12). -/
def wrap (n : Nat) (x : Int) : Int := x.bmod (2 ^ n)

/-- floor(x / 2^k), which is `x >>a k` (R12). -/
def floorShift (x : Int) (k : Nat) : Int := x.fdiv (2 ^ k)

/-- `clamp(v, lo, hi)` (R12). -/
def clampInt (v lo hi : Int) : Int := if v < lo then lo else if hi < v then hi else v

/-! ## Temperature, W = 32 -/

/-- R137 on the integers. -/
def intTempTerm1 (t1 t2 rawT : Int) : Int :=
  floorShift (wrap 32 (wrap 32 (floorShift rawT 3 - wrap 32 (t1 * 2)) * t2)) 11

/-- R138 on the integers. -/
def intTempTerm2 (t1 t3 rawT : Int) : Int :=
  let d := wrap 32 (floorShift rawT 4 - t1)
  floorShift (wrap 32 (floorShift (wrap 32 (d * d)) 12 * t3)) 14

/-- R139's fine-value on the integers. -/
def intTempFine (t1 t2 t3 rawT : Int) : Int := wrap 32 (intTempTerm1 t1 t2 rawT + intTempTerm2 t1 t3 rawT)

/-- R139's output on the integers. -/
def intTempOutput (tFine : Int) : Int := floorShift (wrap 32 (wrap 32 (tFine * 5) + 128)) 8

/-! ## Pressure, W = 64 -/

/-- R142 on the integers. -/
def intPresOffset (tFine : Int) : Int := wrap 64 (tFine - 128000)

/-- R143 on the integers. -/
def intPresTerm2 (p4 p5 p6 v1 : Int) : Int :=
  wrap 64 (wrap 64 (wrap 64 (wrap 64 (v1 * v1) * p6) + wrap 64 (wrap 64 (v1 * p5) * 2 ^ 17)) + wrap 64 (p4 * 2 ^ 35))

/-- R144 on the integers. -/
def intPresTerm1 (p2 p3 v1 : Int) : Int :=
  wrap 64 (floorShift (wrap 64 (wrap 64 (v1 * v1) * p3)) 8 + wrap 64 (wrap 64 (v1 * p2) * 2 ^ 12))

/-- R145 on the integers. -/
def intPresNorm (p1 v1 : Int) : Int := floorShift (wrap 64 (wrap 64 (2 ^ 47 + v1) * p1)) 33

/-- R147 on the integers: truncation toward zero, then the wrap. -/
def intPresQuotient (v1 v2 rawP : Int) : Int :=
  wrap 64 ((wrap 64 (wrap 64 (wrap 64 (wrap 64 (1048576 - rawP) * 2 ^ 31) - v2) * 3125)).tdiv v1)

/-- R148's i64 result on the integers. -/
def intPresFinal (p7 p8 p9 p : Int) : Int :=
  let v1 := floorShift (wrap 64 (wrap 64 (p9 * floorShift p 13) * floorShift p 13)) 25
  let v2 := floorShift (wrap 64 (p8 * p)) 19
  wrap 64 (floorShift (wrap 64 (wrap 64 (p + v1) + v2)) 8 + wrap 64 (p7 * 2 ^ 4))

/-- PRES as an unsigned number (R146, R148): the low 32 bits of the i64 result. -/
def intPresOutput (p1 p2 p3 p4 p5 p6 p7 p8 p9 tFine rawP : Int) : Int :=
  let v1 := intPresOffset tFine
  let v2 := intPresTerm2 p4 p5 p6 v1
  let norm := intPresNorm p1 (intPresTerm1 p2 p3 v1)
  if norm = 0 then 0 else intPresFinal p7 p8 p9 (intPresQuotient norm v2 rawP) % 2 ^ 32

/-! ## Humidity, W = 32 -/

/-- R152 on the integers: toward zero, or down. -/
def intScale (f : HumForm) (v : Int) (k : Nat) : Int :=
  match f with
  | .div => v.tdiv (2 ^ k)
  | .shift => v.fdiv (2 ^ k)

/-- R153 on the integers: the last `v5`. -/
def intHumChain (form : HumForm) (h1 h2 h3 h4 h5 h6 tFine rawH : Int) : Int :=
  let x := wrap 32 (tFine - 76800)
  let a := wrap 32 (rawH * 16384)
  let b := wrap 32 (h4 * 1048576)
  let c := wrap 32 (h5 * x)
  let v5 := intScale form (wrap 32 (wrap 32 (wrap 32 (a - b) - c) + 16384)) 15
  let e := intScale form (wrap 32 (x * h6)) 10
  let f := intScale form (wrap 32 (x * h3)) 11
  let g := wrap 32 (intScale form (wrap 32 (e * wrap 32 (f + 32768))) 10 + 2097152)
  let h := intScale form (wrap 32 (wrap 32 (g * h2) + 8192)) 14
  let v3 := wrap 32 (v5 * h)
  let q := intScale form v3 15
  let v4 := intScale form (wrap 32 (q * q)) 7
  wrap 32 (v3 - intScale form (wrap 32 (v4 * h1)) 4)

/-- R155 on the integers. -/
def intHumOutput (v5 : Int) : Int := min ((clampInt v5 0 419430400).tdiv 4096) 102400

end Sys2Proof.Machine
end

