-- ==== Sys2Proof/Safety.lean ====
section
/-! DEFINITION. The terms claims use: reading a record by the bit positions of the spec, what a well-formed response is,
what a clean run is, and the premises and invariants of the block. -/

namespace Sys2Proof

/-- A record as one number, bit 0 its least significant (spec R10, R78). -/
def recordNumber : Record → Nat
  | [] => 0
  | b :: rest => b.toNat + 256 * recordNumber rest

/-- The field `r[hi:lo]` of a record, unsigned (R10). -/
def fieldOf (r : Record) (hi lo : Nat) : Nat := recordNumber r / 2 ^ lo % 2 ^ (hi + 1 - lo)

/-- A record's length in bits (R70). -/
def bitLength (r : Record) : Nat := 8 * r.length

end Sys2Proof

namespace Sys2Proof.Machine

/-- The next state of a step that has one. -/
def nextOf : Host.Outcome State Fault Refusal → Option State
  | .next t => some t
  | .fault _ => none
  | .refused _ => none

/-- The newest response in the host's hands. -/
def lastResponse (s : State) : Option Record := s.responses.getLast?

/-- A response that reports success: STATUS 0x00 (R200). -/
def succeeded (r : Record) : Bool := r.head? == some 0

/-- A response record as R80 and R200 allow it: a STATUS byte of 0x00 to 0x04, every other byte 0 where STATUS is not 0x00,
and the length of one of the six formats (R81-R86). -/
def responseWellFormed : Record → Bool
  | [] => false
  | st :: rest =>
    decide (st.toNat ≤ 4) && (decide (st = 0) || rest.all (· == 0)) &&
      [0, 4, 8, 10, 36].contains rest.length

/-- A clean run: every response has STATUS 0x00 (93_implementation_defined.md: how "does not fault" is said). -/
def cleanRun (s : State) : Bool := s.responses.all succeeded

/-- H4 or H5 lies in the range of R31 for the parameter. -/
def packedInRange (cfg : Config) (v : Word16) : Prop :=
  if cfg.h45MsbSigned then -2048 ≤ v.toInt ∧ v.toInt ≤ 2047 else v.toNat ≤ 4095

/-- The coefficient sets a buffer can hold (R31, R125). -/
def Coeffs.inRange (cfg : Config) (c : Coeffs) : Prop := packedInRange cfg c.h4 ∧ packedInRange cfg c.h5

/-- Invariant: a Ready block holds a coefficient set in range (R31). -/
def State.storeInRange (s : State) : Prop := s.calibValid = true → s.coeffs.inRange s.config

/-- Invariant: every response in the host's hands is well formed (R80, R200). -/
def State.responsesWellFormed (s : State) : Prop := s.responses.all responseWellFormed = true

/-- The host's duty R241-R243 as a premise: the fine-value came from COMPT on the block's present coefficient set, in the
same cycle, from the raw temperature `rawT`. -/
def freshFine (s : State) (rawT tFine : Word32) : Prop :=
  s.calibValid = true ∧ tFine = tempFine s.coeffs rawT

/-- The two states agree on all the block reads besides the named parts: the parameters, the inputs still to come and the
responses already given. -/
def State.sameInterface (s t : State) : Prop :=
  s.config = t.config ∧ s.pending = t.pending ∧ s.responses = t.responses

end Sys2Proof.Machine
end

