-- ==== Sys2Proof/Certificates/Slice0/Obligations.lean ====
section
/-! DEFINITION. The statements for the provers, from the numbered rules of spec/. Each docstring names the rule or the spec
sentence a statement formalises; OBLIGATIONS.json lists them. The helper definitions at the top only abbreviate. -/

open Sys2Proof Sys2Proof.Machine

namespace Sys2Proof.Claims

/-- Byte i of a buffer as a number. -/
def byteNat (buf : List Byte) (i : Nat) : Nat := (buf.getD i 0).toNat

/-- Spec R104's pair at offset o: `buf[o] + 256 * buf[o+1]`. -/
def pairNat (buf : List Byte) (o : Nat) : Nat := byteNat buf o + 256 * byteNat buf (o + 1)

/-- Spec R104's `int16` of a pair: less 65536 from 32768 on. -/
def int16Of (n : Nat) : Int := if 32768 ≤ n then (n : Int) - 65536 else n

/-- Spec R11's `int8`: b if b < 128, else b - 256. -/
def int8Of (n : Nat) : Int := if 128 ≤ n then (n : Int) - 256 else n

/-- What COMPT must answer as T_FINE, over the integers (R137-R139). -/
def fineOf (c : Coeffs) (rawT : Word32) : Int := intTempFine c.t1.toNat c.t2.toInt c.t3.toInt rawT.toInt

/-- The normalization term over the integers (R142, R144, R145). -/
def normOf (c : Coeffs) (tFine : Word32) : Int :=
  intPresNorm c.p1.toNat (intPresTerm1 c.p2.toInt c.p3.toInt (intPresOffset tFine.toInt))

/-- The dividend of R147 over the integers. -/
def dividendOf (c : Coeffs) (tFine rawP : Word32) : Int :=
  wrap 64 (wrap 64 (wrap 64 (wrap 64 (1048576 - rawP.toInt) * 2 ^ 31)
    - intPresTerm2 c.p4.toInt c.p5.toInt c.p6.toInt (intPresOffset tFine.toInt)) * 3125)

/-- What COMPP must answer as PRES, over the integers (R142-R148). -/
def presOf (c : Coeffs) (tFine rawP : Word32) : Int :=
  intPresOutput c.p1.toNat c.p2.toInt c.p3.toInt c.p4.toInt c.p5.toInt c.p6.toInt c.p7.toInt c.p8.toInt c.p9.toInt
    tFine.toInt rawP.toInt

/-- What COMPH must answer as HUM, over the integers (R152, R153, R155). -/
def humOf (form : HumForm) (c : Coeffs) (tFine : Word32) (rawH : Word16) : Int :=
  intHumOutput (intHumChain form c.h1.toNat c.h2.toInt c.h3.toNat c.h4.toInt c.h5.toInt c.h6.toInt tFine.toInt rawH.toNat)

/-- The 20-bit reading of R55 from three bytes. -/
def readingOf (buf : List Byte) (i : Nat) : Nat :=
  byteNat buf i * 4096 + byteNat buf (i + 1) * 16 + byteNat buf (i + 2) / 16

/-- The raw temperature of a burst as COMPT's operand (R183: non-negative in i32). -/
def burstRawT (buf : List Byte) : Word32 := BitVec.ofNat 32 (readingOf buf 3)

/-- The raw pressure of a burst as COMPP's operand. -/
def burstRawP (buf : List Byte) : Word32 := BitVec.ofNat 32 (readingOf buf 0)

/-- The raw humidity of a burst as COMPH's operand. -/
def burstRawH (buf : List Byte) : Word16 := BitVec.ofNat 16 (byteNat buf 6 * 256 + byteNat buf 7)

/-- The state with one more response in the host's hands and nothing else changed. -/
def plusResponse (s : State) (r : Record) : State := { s with responses := s.responses ++ [r] }

/-- Two coefficient sets agree on what COMPT reads (R33). -/
def sameT (c d : Coeffs) : Prop := c.t1 = d.t1 ∧ c.t2 = d.t2 ∧ c.t3 = d.t3

/-- Two coefficient sets agree on what COMPP reads (R33). -/
def sameP (c d : Coeffs) : Prop :=
  c.p1 = d.p1 ∧ c.p2 = d.p2 ∧ c.p3 = d.p3 ∧ c.p4 = d.p4 ∧ c.p5 = d.p5 ∧ c.p6 = d.p6 ∧ c.p7 = d.p7 ∧ c.p8 = d.p8 ∧
    c.p9 = d.p9

/-- Two coefficient sets agree on what COMPH reads (R33). -/
def sameH (c d : Coeffs) : Prop :=
  c.h1 = d.h1 ∧ c.h2 = d.h2 ∧ c.h3 = d.h3 ∧ c.h4 = d.h4 ∧ c.h5 = d.h5 ∧ c.h6 = d.h6

/-- The answer of a command in one state is its answer in the other. -/
def sameAnswer (i : Instr) (s t : State) : Prop :=
  ∃ (s' t' : State) (r : Record), exec i s = .next s' ∧ exec i t = .next t' ∧
    s'.responses = s.responses ++ [r] ∧ t'.responses = t.responses ++ [r]

/-- The word of the assembly syntax for each command (R87). -/
def mnemonicOf : Op → Verb
  | .decode => .decode
  | .compt => .compt
  | .compp => .compp
  | .comph => .comph
  | .unpack => .unpack

/-- The numbers that eight operands of `measure` must stand for (R87). -/
def byteValues (buf : List Byte) : List Int := buf.map fun b => (b.toNat : Int)

end Sys2Proof.Claims

open Sys2Proof.Claims

/-! ## Encoding -/

/-- 30_encoding.md section 1: the decoder gives back every command from its record, with every operand at every value. -/
def Obligations.DecodeOfEncodeIsTheCommand : Prop :=
  ∀ i : Instr, i.wellFormed = true → decodeRecord (encode i) = .command i

/-- 30_encoding.md section 1, the other direction: a record that is a command is the one record of that command. -/
def Obligations.EncodeOfDecodeIsTheRecord : Prop :=
  ∀ (r : Record) (i : Instr), decodeRecord r = .command i → encode i = r

/-- R73, whole: a command byte with OP (bits 2:0) in 5, 6, 7 or RSV (bits 7:3) not 0 selects no operation, whatever follows;
the block answers the one byte 0x04 and writes no state; 251 command bytes are so. -/
def Obligations.ReservedByteAnswersReservedOperation : Prop :=
  (∀ (b : Byte) (rest : Record), (5 ≤ b.toNat % 8 ∨ b.toNat / 8 ≠ 0) →
    opOf b = none ∧ decodeRecord (b :: rest) = .reserved ∧
    ∀ (s : State) (inputs : List HostInput), s.pending = .command (b :: rest) :: inputs →
      step s = .next { s with pending := inputs, responses := s.responses ++ [[0x04]] }) ∧
  ((List.range 256).countP fun n => (opOf (BitVec.ofNat 8 n)).isNone) = 251

/-- 30_encoding.md section 1 and 95_test_vectors.md: records written out byte by byte decode to their commands. -/
def Obligations.HandWrittenRecordsDecode : Prop :=
  decodeRecord [0x01, 0xF8, 0xFF, 0xFF, 0xFF] = .command (.compt (BitVec.ofInt 32 (-8))) ∧
  decodeRecord [0x02, 0xA6, 0xF5, 0x01, 0x00, 0xAC, 0x55, 0x06, 0x00] = .command (.compp 128422 415148) ∧
  decodeRecord [0x03, 0xA6, 0xF5, 0x01, 0x00, 0x30, 0x75] = .command (.comph 128422 30000) ∧
  decodeRecord [0x04, 0x12, 0x34, 0x5F, 0x65, 0x43, 0x2F, 0x80] =
    .command (.unpack [0x12, 0x34, 0x5F, 0x65, 0x43, 0x2F, 0x80]) ∧
  decodeRecord [0x00] = .command (.decode [])

/-- R76, whole: the fixed formats are 40, 72 and 56 bits and nothing else; FMT_B takes every length n; a record of the wrong
length is refused with no block status; a reserved command byte comes with any length. -/
def Obligations.RecordLengthRules : Prop :=
  (∀ rest : Record,
    ((∃ i, decodeRecord (0x01 :: rest) = .command i) ↔ bitLength (0x01 :: rest) = 40) ∧
    ((∃ i, decodeRecord (0x02 :: rest) = .command i) ↔ bitLength (0x02 :: rest) = 72) ∧
    ((∃ i, decodeRecord (0x03 :: rest) = .command i) ↔ bitLength (0x03 :: rest) = 56)) ∧
  (∀ buf : List Byte,
    decodeRecord (0x00 :: buf) = .command (.decode buf) ∧ decodeRecord (0x04 :: buf) = .command (.unpack buf) ∧
    buf.length = (bitLength (0x00 :: buf) - 8) / 8) ∧
  (∀ (b : Byte) (rest : Record) (s : State) (inputs : List HostInput),
    (b = 0x01 ∧ bitLength (b :: rest) ≠ 40) ∨ (b = 0x02 ∧ bitLength (b :: rest) ≠ 72) ∨
      (b = 0x03 ∧ bitLength (b :: rest) ≠ 56) →
    s.pending = .command (b :: rest) :: inputs → ∃ why, step s = .refused (.notACommand why)) ∧
  (∀ (b : Byte) (rest : Record), (5 ≤ b.toNat % 8 ∨ b.toNat / 8 ≠ 0) → decodeRecord (b :: rest) = .reserved)

/-- R75 with R72's command bytes: every field of every format at its bit positions. -/
def Obligations.CommandFieldsAtTheirBits : Prop :=
  (∀ rawT : Word32, bitLength (encode (.compt rawT)) = 40 ∧ fieldOf (encode (.compt rawT)) 7 0 = 0x01 ∧
    fieldOf (encode (.compt rawT)) 39 8 = rawT.toNat) ∧
  (∀ tFine rawP : Word32, bitLength (encode (.compp tFine rawP)) = 72 ∧ fieldOf (encode (.compp tFine rawP)) 7 0 = 0x02 ∧
    fieldOf (encode (.compp tFine rawP)) 39 8 = tFine.toNat ∧ fieldOf (encode (.compp tFine rawP)) 71 40 = rawP.toNat) ∧
  (∀ (tFine : Word32) (rawH : Word16), bitLength (encode (.comph tFine rawH)) = 56 ∧
    fieldOf (encode (.comph tFine rawH)) 7 0 = 0x03 ∧
    fieldOf (encode (.comph tFine rawH)) 39 8 = tFine.toNat ∧ fieldOf (encode (.comph tFine rawH)) 55 40 = rawH.toNat) ∧
  (∀ buf : List Byte, bitLength (encode (.decode buf)) = 8 + 8 * buf.length ∧ fieldOf (encode (.decode buf)) 7 0 = 0x00 ∧
    bitLength (encode (.unpack buf)) = 8 + 8 * buf.length ∧ fieldOf (encode (.unpack buf)) 7 0 = 0x04 ∧
    ∀ i, i < buf.length →
      fieldOf (encode (.decode buf)) (8 * i + 15) (8 * i + 8) = byteNat buf i ∧
      fieldOf (encode (.unpack buf)) (8 * i + 15) (8 * i + 8) = byteNat buf i)

/-- 30_encoding.md section 4 (R90 and the syntax of R87): every record that is a command or has a reserved command byte has a
line. A reserved byte's line is `.cmd` with the record's own bytes and no mnemonic; a command's line has its mnemonic. The text
printed for the line begins with that word, reads back as the line, and assembles to the same record whatever names are bound.
Log entry 15 (DESIGN CHOICE) is what two things lie on: that the first word is in small letters, where R72 spells the
mnemonics in capitals, R87 takes either and R90 names no case, which the prefix clause says; and the base the numbers are
printed in, of which only that the text reads back is said. -/
def Obligations.AssemblyOfDisassemblyIsTheRecord : Prop :=
  ∀ r : Record, (∀ why, decodeRecord r ≠ .notACommand why) →
    ∃ l : AsmLine, disassemble r = some l ∧ l.binds = [] ∧
      (decodeRecord r = .reserved → l.verb = .cmd ∧ l.operands = byteOperands r) ∧
      (∀ i, decodeRecord r = .command i → l.verb = mnemonicOf i.op) ∧
      verbText l.verb <+: lineText l ∧ parseLine (lineText l) = .ok (some l) ∧
      ∀ names : List (HostName × Int), ∃ vs, resolveOperands names l.operands = .ok vs ∧ lineRecord l.verb vs = .ok r

/-! ## Steps -/

/-- 30_encoding.md section 1 and 20_memory.md section 4: a step takes the oldest record issued and, where it decodes to a
well-formed command, is `exec` of that command with the record taken out of the queue. -/
def Obligations.StepRunsTheDecodedCommand : Prop :=
  ∀ (s : State) (r : Record) (inputs : List HostInput) (i : Instr),
    s.pending = .command r :: inputs → decodeRecord r = .command i → i.wellFormed = true →
      step s = exec i { s with pending := inputs }

/-- 70_reset_and_hazards.md section 1: the reset input puts the block in Uninit. That the registers then hold 0, and that
parameters, inputs and responses stay, is the model's choice (log entries 3 and 4). -/
def Obligations.ResetInputGivesUninit : Prop :=
  ∀ (s : State) (inputs : List HostInput), s.pending = .reset :: inputs →
    ∃ t, step s = .next t ∧ t.store = .uninit ∧ t.calibValid = false ∧ t.coeffs = State.reset.coeffs ∧
      t.config = s.config ∧ t.pending = inputs ∧ t.responses = s.responses

/-- 70_reset_and_hazards.md section 1 and the defaults of 00_scope.md section 4: after reset the block is Uninit. The empty
command interface is the model's choice (log entry 1). -/
def Obligations.ResetStateIsUninit : Prop :=
  State.reset.calibValid = false ∧ State.reset.store = .uninit ∧ State.reset.config.h45MsbSigned = true ∧
    State.reset.config.humForm = .div ∧ State.reset.pending = [] ∧ State.reset.responses = []

/-- The model's choice, log entry 5: a block with nothing issued to it waits unchanged. -/
def Obligations.IdleBlockWaits : Prop := ∀ s : State, s.pending = [] → step s = .next s

/-- The model's choice, log entry 6: a record of no byte has no command byte, so it is no command and is refused by name. -/
def Obligations.EmptyRecordIsRefused : Prop :=
  ∀ (s : State) (inputs : List HostInput), s.pending = .command [] :: inputs →
    step s = .refused (.notACommand .emptyRecord)

/-- 93_implementation_defined.md ("no command of this block can fail to complete") and the frame of all five commands: every
command answers one response and changes neither parameters nor inputs nor earlier responses; every command but a DECODE of
42 bytes leaves CALIB_VALID and all 18 registers as they were. The block has no memory, so there is no byte to frame. That
parameters, inputs and responses are fields of the state, and what a command does to them, is the model's (log entries 1, 2
and 10, DESIGN CHOICE). -/
def Obligations.EveryCommandCompletesAndKeepsItsFrame : Prop :=
  ∀ (i : Instr) (s : State), ∃ (t : State) (r : Record), exec i s = .next t ∧
    t.responses = s.responses ++ [r] ∧ t.config = s.config ∧ t.pending = s.pending ∧
    ((¬ ∃ buf, i = .decode buf ∧ buf.length = 42) → t.calibValid = s.calibValid ∧ t.coeffs = s.coeffs)

/-- 20_memory.md section 4 and 30_encoding.md section 1, of a step that takes a command record: it takes the oldest input and
adds exactly one response. The rest is the model's choice (DESIGN CHOICE) and not theirs: that no step changes the parameters
(log entry 2; 00_scope.md section 4 gives them no command that writes them), that inputs and responses are lists and the
earlier responses stay (log entries 1 and 10), that a reset input is taken, adds no response and keeps the later inputs
(log entry 4), and that a step with nothing issued takes nothing and adds nothing (log entry 5). -/
def Obligations.StepTakesOneInputInOrder : Prop :=
  ∀ s t : State, step s = .next t →
    t.pending = s.pending.tail ∧ t.config = s.config ∧
    (t.responses = s.responses ∨ ∃ r, t.responses = s.responses ++ [r]) ∧
    (∀ r inputs, s.pending = .command r :: inputs → t.responses.length = s.responses.length + 1)

/-! ## DECODE -/

/-- R105-R107: the temperature coefficients of every 42-byte buffer, from every state. -/
def Obligations.DecodeLoadsTemperatureCoefficients : Prop :=
  ∀ (buf : List Byte) (s : State), buf.length = 42 → ∃ t, exec (.decode buf) s = .next t ∧ t.calibValid = true ∧
    t.coeffs.t1.toNat = pairNat buf 0 ∧ t.coeffs.t2.toInt = int16Of (pairNat buf 2) ∧
    t.coeffs.t3.toInt = int16Of (pairNat buf 4)

/-- R108-R116: the pressure coefficients. -/
def Obligations.DecodeLoadsPressureCoefficients : Prop :=
  ∀ (buf : List Byte) (s : State), buf.length = 42 → ∃ t, exec (.decode buf) s = .next t ∧ t.calibValid = true ∧
    t.coeffs.p1.toNat = pairNat buf 6 ∧ t.coeffs.p2.toInt = int16Of (pairNat buf 8) ∧
    t.coeffs.p3.toInt = int16Of (pairNat buf 10) ∧ t.coeffs.p4.toInt = int16Of (pairNat buf 12) ∧
    t.coeffs.p5.toInt = int16Of (pairNat buf 14) ∧ t.coeffs.p6.toInt = int16Of (pairNat buf 16) ∧
    t.coeffs.p7.toInt = int16Of (pairNat buf 18) ∧ t.coeffs.p8.toInt = int16Of (pairNat buf 20) ∧
    t.coeffs.p9.toInt = int16Of (pairNat buf 22)

/-- R117-R119 and R122: the humidity coefficients that are whole bytes or a pair. -/
def Obligations.DecodeLoadsWholeHumidityCoefficients : Prop :=
  ∀ (buf : List Byte) (s : State), buf.length = 42 → ∃ t, exec (.decode buf) s = .next t ∧ t.calibValid = true ∧
    t.coeffs.h1.toNat = byteNat buf 25 ∧ t.coeffs.h2.toInt = int16Of (pairNat buf 26) ∧
    t.coeffs.h3.toNat = byteNat buf 28 ∧ t.coeffs.h6.toInt = int8Of (byteNat buf 32)

/-- 40_coefficient_decoder.md section 2, H4 and H5, for both values of H45_MSB_SIGNED. The spec marks the bit placement as
derived, so no rule is cited. The nibble is unsigned (90_conflicts.md C6). -/
def Obligations.DecodeLoadsPackedCoefficients : Prop :=
  ∀ (buf : List Byte) (s : State), buf.length = 42 → ∃ t, exec (.decode buf) s = .next t ∧ t.calibValid = true ∧
    (s.config.h45MsbSigned = true →
      t.coeffs.h4.toInt = int8Of (byteNat buf 29) * 16 + (byteNat buf 30 % 16 : Nat) ∧
      t.coeffs.h5.toInt = int8Of (byteNat buf 31) * 16 + (byteNat buf 30 / 16 : Nat)) ∧
    (s.config.h45MsbSigned = false →
      t.coeffs.h4.toInt = ((byteNat buf 29 * 16 + byteNat buf 30 % 16 : Nat) : Int) ∧
      t.coeffs.h5.toInt = ((byteNat buf 31 * 16 + byteNat buf 30 / 16 : Nat) : Int))

/-- R81: the DECODE response is 296 bits, STATUS then the 18 coefficients as 16-bit patterns in R31's order, H1 and H3
zero-extended, H6 sign-extended; they are the store's new values. -/
def Obligations.DecodeResponseCarriesTheStore : Prop :=
  ∀ (buf : List Byte) (s : State), buf.length = 42 → ∃ (t : State) (r : Record), exec (.decode buf) s = .next t ∧
    t.responses = s.responses ++ [r] ∧ bitLength r = 296 ∧ fieldOf r 7 0 = 0 ∧
    ∀ k, k < 18 → fieldOf r (16 * k + 23) (16 * k + 8) =
      ([t.coeffs.t1, t.coeffs.t2, t.coeffs.t3, t.coeffs.p1, t.coeffs.p2, t.coeffs.p3, t.coeffs.p4, t.coeffs.p5, t.coeffs.p6,
        t.coeffs.p7, t.coeffs.p8, t.coeffs.p9, t.coeffs.h1.setWidth 16, t.coeffs.h2, t.coeffs.h3.setWidth 16, t.coeffs.h4,
        t.coeffs.h5, t.coeffs.h6.signExtend 16].getD k 0).toNat

/-- R103: on 42 bytes DECODE succeeds, and what it loads and answers depends on the bytes and H45_MSB_SIGNED alone. -/
def Obligations.DecodeDependsOnTheBufferAlone : Prop :=
  ∀ (buf : List Byte) (s s' : State), buf.length = 42 → s.config.h45MsbSigned = s'.config.h45MsbSigned →
    ∃ (t t' : State) (r : Record), exec (.decode buf) s = .next t ∧ exec (.decode buf) s' = .next t' ∧
      succeeded r = true ∧ t.responses = s.responses ++ [r] ∧ t'.responses = s'.responses ++ [r] ∧
      t.calibValid = true ∧ t'.calibValid = true ∧ t.coeffs = t'.coeffs

/-- R101 and R102: a buffer of any other length answers InvalidCalibrationLength with every field 0, whatever its bytes, and
writes no state. -/
def Obligations.DecodeWrongLengthWritesNothing : Prop :=
  ∀ (buf : List Byte) (s : State), buf.length ≠ 42 →
    exec (.decode buf) s = .next (plusResponse s (0x01 :: List.replicate 36 0))

/-- R61: bytes 24 and 33-41 cannot change any result. -/
def Obligations.UnusedCalibrationBytesDoNotMatter : Prop :=
  ∀ (buf buf' : List Byte) (s : State), buf.length = 42 → buf'.length = 42 →
    (∀ i, i < 33 → i ≠ 24 → buf.getD i 0 = buf'.getD i 0) → exec (.decode buf) s = exec (.decode buf') s

/-- 40_coefficient_decoder.md section 3, the round trip (the spec marks it derived): a coefficient set in range, encoded into
a buffer with any bytes at the unused offsets, decodes to itself. -/
def Obligations.CoefficientsSurviveEncodeAndDecode : Prop :=
  ∀ (c : Coeffs) (s : State) (fill24 : Byte) (fill33 : List Byte), fill33.length = 9 → c.inRange s.config →
    ∃ t, exec (.decode (encodeCoeffs c fill24 fill33)) s = .next t ∧ t.calibValid = true ∧ t.coeffs = c

/-- R32: only a DECODE of 42 bytes changes the store or CALIB_VALID, it writes all 18 registers and the bit in one step, and a
later one replaces all 18 (its registers are those the buffer gives from any other state). -/
def Obligations.OnlyASuccessfulDecodeWritesTheStore : Prop :=
  (∀ (i : Instr) (s t : State), exec i s = .next t → (t.coeffs ≠ s.coeffs ∨ t.calibValid ≠ s.calibValid) →
    ∃ buf, i = .decode buf ∧ buf.length = 42 ∧ t.calibValid = true) ∧
  (∀ (buf : List Byte) (s t t₀ : State), buf.length = 42 → exec (.decode buf) s = .next t →
    exec (.decode buf) { State.reset with config := s.config } = .next t₀ → t.store = t₀.store ∧ t.store = .ready t.coeffs)

/-- 20_memory.md section 3 (the spec marks it derived): DECODE twice leaves the block as DECODE once does. -/
def Obligations.RepeatedDecodeIsOneDecode : Prop :=
  ∀ (buf : List Byte) (s t u : State), exec (.decode buf) s = .next t → exec (.decode buf) t = .next u →
    u.calibValid = t.calibValid ∧ u.coeffs = t.coeffs ∧ ∃ r, t.responses = s.responses ++ [r] ∧ u.responses = t.responses ++ [r]

/-- 10_state.md section 2: every step keeps H4 and H5 of a Ready block in the range the parameter gives. -/
def Obligations.StepKeepsTheStoreInRange : Prop :=
  ∀ s t : State, s.storeInRange → step s = .next t → t.storeInRange

/-- 10_state.md section 2: the range invariant holds after reset. -/
def Obligations.ResetStoreIsInRange : Prop := State.reset.storeInRange

/-! ## COMPT -/

/-- R82, with the values of 41_compensation.md section 2: on a Ready block COMPT answers, in 72 bits, TEMP and T_FINE of the
chain read over the integers, and changes nothing else. -/
def Obligations.ComptAnswersTheIntegerChain : Prop :=
  ∀ (rawT : Word32) (s : State), s.calibValid = true → ∃ r : Record,
    exec (.compt rawT) s = .next (plusResponse s r) ∧ bitLength r = 72 ∧ fieldOf r 7 0 = 0 ∧
    (fieldOf r 39 8 : Int) = intTempOutput (fineOf s.coeffs rawT) % 2 ^ 32 ∧
    (fieldOf r 71 40 : Int) = fineOf s.coeffs rawT % 2 ^ 32

/-- R137 and R138: the two correction terms over the integers, and where they lie; when the square of `d` wraps, and that a
wrapped square can be negative. -/
def Obligations.TemperatureTermsAndTheirBounds : Prop :=
  (∃ (c : Coeffs) (rawT : Word32), (tempDelta c rawT * tempDelta c rawT).toInt < 0) ∧
  ∀ (c : Coeffs) (rawT : Word32),
    (tempTerm1 c rawT).toInt = intTempTerm1 c.t1.toNat c.t2.toInt rawT.toInt ∧
    -2 ^ 20 ≤ (tempTerm1 c rawT).toInt ∧ (tempTerm1 c rawT).toInt ≤ 2 ^ 20 - 1 ∧
    (tempDelta c rawT).toInt = wrap 32 (floorShift rawT.toInt 4 - c.t1.toNat) ∧
    (46340 < |(tempDelta c rawT).toInt| ↔
      (tempDelta c rawT * tempDelta c rawT).toInt ≠ (tempDelta c rawT).toInt * (tempDelta c rawT).toInt) ∧
    (tempTerm2 c rawT).toInt = intTempTerm2 c.t1.toNat c.t3.toInt rawT.toInt ∧
    -2 ^ 17 ≤ (tempTerm2 c rawT).toInt ∧ (tempTerm2 c rawT).toInt ≤ 2 ^ 17 - 1

/-- 41_compensation.md section 2, the bounds the spec marks as derived: neither the sum nor the output wraps, for any
coefficients and any raw_t. -/
def Obligations.FineValueAndTemperatureNeverWrap : Prop :=
  ∀ (c : Coeffs) (rawT : Word32),
    (tempFine c rawT).toInt = (tempTerm1 c rawT).toInt + (tempTerm2 c rawT).toInt ∧
    -1179648 ≤ (tempFine c rawT).toInt ∧ (tempFine c rawT).toInt ≤ 1179646 ∧
    (tempOutput (tempFine c rawT)).toInt = ((tempFine c rawT).toInt * 5 + 128).fdiv 256 ∧
    -23040 ≤ (tempOutput (tempFine c rawT)).toInt ∧ (tempOutput (tempFine c rawT)).toInt ≤ 23040

/-- 60_exceptions.md section 1, NotCalibrated, and 41_compensation.md: while CALIB_VALID is 0 the three compensations answer
0x02 in their own format, every field 0, and write nothing. -/
def Obligations.CompensationBeforeDecodeIsNotCalibrated : Prop :=
  ∀ (s : State), s.calibValid = false →
    (∀ rawT, exec (.compt rawT) s = .next (plusResponse s (0x02 :: List.replicate 8 0))) ∧
    (∀ tFine rawP, exec (.compp tFine rawP) s = .next (plusResponse s (0x02 :: List.replicate 4 0))) ∧
    (∀ tFine rawH, exec (.comph tFine rawH) s = .next (plusResponse s (0x02 :: List.replicate 4 0)))

/-! ## COMPP -/

/-- R83, with R142-R145 and R147: on a Ready block COMPP answers, in 40 bits, PRES of the chain read over the integers, for
every t_fine and raw_p, and changes nothing else. -/
def Obligations.ComppAnswersTheIntegerChain : Prop :=
  ∀ (tFine rawP : Word32) (s : State), s.calibValid = true → ∃ r : Record,
    exec (.compp tFine rawP) s = .next (plusResponse s r) ∧ bitLength r = 40 ∧ fieldOf r 7 0 = 0 ∧
    (fieldOf r 39 8 : Int) = presOf s.coeffs tFine rawP

/-- R146: a normalization term of exactly 0 answers PRES = 0 with STATUS 0x00, regardless of raw_p and the other
coefficients; P1 = 0 always gives one. -/
def Obligations.ZeroNormalizationTermAnswersZero : Prop :=
  ∀ (tFine rawP : Word32) (s : State), s.calibValid = true →
    (normOf s.coeffs tFine = 0 → exec (.compp tFine rawP) s = .next (plusResponse s [0x00, 0, 0, 0, 0])) ∧
    (s.coeffs.p1 = 0 → normOf s.coeffs tFine = 0)

/-- R149: where the division is -2^63 by -1 the quotient wraps to -2^63 and the command goes on with it. -/
def Obligations.PressureDivisionOverflowWraps : Prop :=
  ∀ (tFine rawP : Word32) (s : State), s.calibValid = true → normOf s.coeffs tFine = -1 →
    dividendOf s.coeffs tFine rawP = -2 ^ 63 → ∃ r : Record,
      exec (.compp tFine rawP) s = .next (plusResponse s r) ∧ bitLength r = 40 ∧ fieldOf r 7 0 = 0 ∧
      (fieldOf r 39 8 : Int) =
        intPresFinal s.coeffs.p7.toInt s.coeffs.p8.toInt s.coeffs.p9.toInt (-2 ^ 63) % 2 ^ 32

/-- 41_compensation.md section 3 and 90_conflicts.md C9 (the spec marks it derived): `p << 31` never wraps. -/
def Obligations.PressureShiftNeverWraps : Prop :=
  ∀ rawP : Word32, (shl (1048576 - sext64 rawP) 31).toInt = (1048576 - rawP.toInt) * 2 ^ 31 ∧
    |1048576 - rawP.toInt| ≤ 2 ^ 31 + 2 ^ 20

/-! ## COMPH -/

/-- R153, with the clamps of R155 and SCALE of either HUM_FORM: on a Ready block COMPH answers, in 40 bits, HUM of the chain
read over the integers, and changes nothing else. -/
def Obligations.ComphAnswersTheIntegerChain : Prop :=
  ∀ (tFine : Word32) (rawH : Word16) (s : State), s.calibValid = true → ∃ r : Record,
    exec (.comph tFine rawH) s = .next (plusResponse s r) ∧ bitLength r = 40 ∧ fieldOf r 7 0 = 0 ∧
    (fieldOf r 39 8 : Int) = humOf s.config.humForm s.coeffs tFine rawH

/-- R152: DIV rounds toward zero, SHIFT rounds down, they differ exactly on a negative value that is no multiple of 2^k (for
the exponents below 31), HUM differs for some inputs, and DIV is the default. -/
def Obligations.ScaleFormsDifferOnlyBelowZero : Prop :=
  (∀ (v : Word32) (k : Nat), k < 31 →
    (scale .div v k).toInt = v.toInt.tdiv (2 ^ k) ∧ (scale .shift v k).toInt = v.toInt.fdiv (2 ^ k) ∧
    (scale .div v k ≠ scale .shift v k ↔ v.toInt < 0 ∧ ¬ (2 ^ k : Int) ∣ v.toInt)) ∧
  (∃ (c : Coeffs) (tFine : Word32) (rawH : Word16),
    humOutput (humChain .div c tFine rawH) ≠ humOutput (humChain .shift c tFine rawH)) ∧
  Config.default.humForm = .div

/-- R155: the clamp, the division by 4096 (which equals `>>a 12` here) and the second clamp. -/
def Obligations.HumidityClampsAndDivision : Prop :=
  ∀ v5 : Word32, (humOutput v5).toInt = intHumOutput v5.toInt ∧
    (humOutput v5).toInt = min (floorShift (clampInt v5.toInt 0 419430400) 12) 102400

/-- 41_compensation.md section 4 (the clamp invariant, which the spec marks as derived): the HUM field of every COMPH response
is at most 102400, whatever the state, the coefficients, the form and the operands. -/
def Obligations.HumidityAlwaysInRange : Prop :=
  ∀ (tFine : Word32) (rawH : Word16) (s t : State), exec (.comph tFine rawH) s = .next t →
    ∃ r, t.responses = s.responses ++ [r] ∧ fieldOf r 39 8 ≤ 102400

/-- 41_compensation.md section 4 (the spec marks it derived): the second clamp never changes a value. -/
def Obligations.SecondHumidityClampChangesNothing : Prop :=
  ∀ v5 : Word32, humOutput v5 = divT (clampS v5 0 419430400) 4096

/-! ## UNPACK -/

/-- R85 and R55: an 8-byte burst answers, in 88 bits and in both states of CALIB_VALID, the three readings, most significant
byte first. -/
def Obligations.UnpackReadsTheBurst : Prop :=
  ∀ (buf : List Byte) (s : State), buf.length = 8 → ∃ r : Record,
    exec (.unpack buf) s = .next (plusResponse s r) ∧ bitLength r = 88 ∧ fieldOf r 7 0 = 0 ∧
    fieldOf r 39 8 = readingOf buf 0 ∧ fieldOf r 71 40 = readingOf buf 3 ∧
    fieldOf r 87 72 = byteNat buf 6 * 256 + byteNat buf 7 ∧
    fieldOf r 39 8 ≤ 2 ^ 20 - 1 ∧ fieldOf r 71 40 ≤ 2 ^ 20 - 1

/-- R181: a burst that is not 8 bytes, shorter or longer, answers InvalidBurstLength whatever its bytes, and writes no
state. -/
def Obligations.UnpackWrongLengthWritesNothing : Prop :=
  ∀ (buf : List Byte) (s : State), buf.length ≠ 8 →
    exec (.unpack buf) s = .next (plusResponse s (0x03 :: List.replicate 10 0))

/-- R182: bits 3:0 of bytes 2 and 5 do not matter. -/
def Obligations.DiscardedNibblesDoNotMatter : Prop :=
  ∀ (buf buf' : List Byte) (s : State), buf.length = 8 → buf'.length = 8 →
    (∀ i, i < 8 → i ≠ 2 → i ≠ 5 → byteNat buf i = byteNat buf' i) →
    byteNat buf 2 / 16 = byteNat buf' 2 / 16 → byteNat buf 5 / 16 = byteNat buf' 5 / 16 →
    exec (.unpack buf) s = exec (.unpack buf') s

/-! ## The whole machine -/

/-- R204: a step whose response is an error leaves the block as if the failed command had not been issued: the state is the
old one with the record taken and the response delivered. -/
def Obligations.ErrorsWriteNoBlockState : Prop :=
  ∀ (s t : State) (r : Record), step s = .next t → t.responses = s.responses ++ [r] → succeeded r = false →
    t = { s with pending := s.pending.tail, responses := s.responses ++ [r] }

/-- 10_state.md section 1: no step clears CALIB_VALID but the reset input, and no step sets it but a DECODE of 42 bytes. -/
def Obligations.CalibValidChangesOnlyByDecodeAndReset : Prop :=
  ∀ s t : State, step s = .next t →
    (s.calibValid = true → t.calibValid = false → s.pending.head? = some .reset) ∧
    (s.calibValid = false → t.calibValid = true →
      ∃ buf, buf.length = 42 ∧ s.pending.head? = some (.command (0x00 :: buf)))

/-- 30_encoding.md section 3 and 60_exceptions.md section 1: every step keeps the responses well formed: a status of 0x00 to
0x04, every other field 0 beside an error, the length of one of the six formats. -/
def Obligations.StepKeepsResponsesWellFormed : Prop :=
  ∀ s t : State, s.responsesWellFormed → step s = .next t → t.responsesWellFormed

/-- The same invariant after reset (the empty list of responses is the model's choice, log entry 1). -/
def Obligations.ResetResponsesAreWellFormed : Prop := State.reset.responsesWellFormed

/-- 10_state.md section 3: a command's answer and effect do not depend on earlier responses or on what is still to come. -/
def Obligations.CommandsReadNoEarlierResponse : Prop :=
  ∀ (i : Instr) (s : State), ∃ (t : State) (r : Record), exec i s = .next t ∧ t.responses = s.responses ++ [r] ∧
    ∀ (history : List Record) (inputs : List HostInput),
      exec i { s with responses := history, pending := inputs } =
        .next { t with responses := history ++ [r], pending := inputs }

/-- 10_state.md section 2, the readers of the store: COMPT's answer depends only on T1-T3, COMPP's only on P1-P9, COMPH's only
on H1-H6 and HUM_FORM; and while CALIB_VALID is 0 no command's answer depends on any register. -/
def Obligations.ReadersSeeOnlyTheirCoefficients : Prop :=
  ∀ s t : State, s.calibValid = t.calibValid →
    (sameT s.coeffs t.coeffs → ∀ rawT, sameAnswer (.compt rawT) s t) ∧
    (sameP s.coeffs t.coeffs → ∀ tFine rawP, sameAnswer (.compp tFine rawP) s t) ∧
    (sameH s.coeffs t.coeffs → s.config.humForm = t.config.humForm → ∀ tFine rawH, sameAnswer (.comph tFine rawH) s t) ∧
    (s.calibValid = false → s.config = t.config → ∀ i : Instr, sameAnswer i s t)

/-- 70_reset_and_hazards.md section 4 (the spec marks it derived): COMPP and COMPH may run in either order. -/
def Obligations.PressureAndHumidityCommute : Prop :=
  ∀ (tFine rawP tFine' : Word32) (rawH : Word16) (s : State), ∃ rp rh : Record,
    exec (.compp tFine rawP) s = .next (plusResponse s rp) ∧
    exec (.comph tFine' rawH) (plusResponse s rp) = .next (plusResponse (plusResponse s rp) rh) ∧
    exec (.comph tFine' rawH) s = .next (plusResponse s rh) ∧
    exec (.compp tFine rawP) (plusResponse s rh) = .next (plusResponse (plusResponse s rh) rp)

/-- 30_encoding.md section 4 and 70_reset_and_hazards.md sections 2 and 4: on a Ready block with nothing else issued, `measure`
of eight bytes, given as numbers or by bound names, binds its three names, whichever they are, to the chains' values with the
same cycle's fine-value passed to both, on the block's coefficient set, and the block itself is left as it was.
Log entry 9 (DESIGN CHOICE) is what the rest lies on: what a host name may be, and the last clause, that every host name other
than the three keeps its value. R89 writes rp, rt, rh and tf as names, and a host that took them for ordinary ones would bind
them anew; the model's `measure` passes these values under names no line can spell. Three names of which two are the same
(also entry 9's) are left out. -/
def Obligations.MeasurePassesTheFineValueOn : Prop :=
  ∀ (s : State) (names : List (HostName × Int)) (ops : List Operand) (buf : List Byte) (nT nP nH : HostName),
    s.calibValid = true → s.pending = [] → buf.length = 8 → resolveOperands names ops = .ok (byteValues buf) →
    isHostName nT = true → isHostName nP = true → isHostName nH = true → nT ≠ nP → nT ≠ nH → nP ≠ nH →
    ∃ (h : Session) (rs : List Record),
      runLine { block := s, names := names } { verb := .measure, operands := ops, binds := [nT, nP, nH] } = .ok (h, true) ∧
      h.block = { s with responses := s.responses ++ rs } ∧ rs.length = 4 ∧
      h.names.lookup nT = some (intTempOutput (fineOf s.coeffs (burstRawT buf))) ∧
      h.names.lookup nP =
        some (presOf s.coeffs (BitVec.ofInt 32 (fineOf s.coeffs (burstRawT buf))) (burstRawP buf)) ∧
      h.names.lookup nH =
        some (humOf s.config.humForm s.coeffs (BitVec.ofInt 32 (fineOf s.coeffs (burstRawT buf))) (burstRawH buf)) ∧
      ∀ n, isHostName n = true → n ≠ nT → n ≠ nP → n ≠ nH → h.names.lookup n = names.lookup n

/-- 30_encoding.md section 4, the failing path of `measure`: in Uninit the first error status is COMPT's, 0x02, so the host
stops after two responses, the block is left as it was, and none of the three names is bound. That a name the host had bound
before to one of the three loses its value is the model's reading of a failed binding, and that every other name keeps its
value, R89's rp, rt, rh and tf among them, is the model's choice of names no line can spell for these values (both log entry 9,
DESIGN CHOICE). -/
def Obligations.MeasureStopsAtTheFirstError : Prop :=
  ∀ (s : State) (names : List (HostName × Int)) (ops : List Operand) (buf : List Byte) (nT nP nH : HostName),
    s.calibValid = false → s.pending = [] → buf.length = 8 → resolveOperands names ops = .ok (byteValues buf) →
    ∃ (h : Session) (r₁ r₂ : Record),
      runLine { block := s, names := names } { verb := .measure, operands := ops, binds := [nT, nP, nH] } = .ok (h, false) ∧
      h.block = { s with responses := s.responses ++ [r₁, r₂] } ∧ fieldOf r₁ 7 0 = 0x00 ∧ fieldOf r₂ 7 0 = 0x02 ∧
      (∀ n, n = nT ∨ n = nP ∨ n = nH → h.names.lookup n = none) ∧
      ∀ n, n ≠ nT → n ≠ nP → n ≠ nH → h.names.lookup n = names.lookup n
end

