-- ==== Sys2Proof/Laws/Arith.lean ====
section
/-! SUPPORT. The arithmetic primitives read over the integers: each is the exact operation, reduced to the width and read
back as signed (spec R12). -/

namespace Sys2Proof.Machine

theorem toInt_add_wrap {w : Nat} (a b : BitVec w) : (a + b).toInt = wrap w (a.toInt + b.toInt) := BitVec.toInt_add a b

theorem toInt_sub_wrap {w : Nat} (a b : BitVec w) : (a - b).toInt = wrap w (a.toInt - b.toInt) := BitVec.toInt_sub

theorem toInt_mul_wrap {w : Nat} (a b : BitVec w) : (a * b).toInt = wrap w (a.toInt * b.toInt) := BitVec.toInt_mul a b

theorem toInt_sar {w : Nat} (a : BitVec w) (k : Nat) : (sar a k).toInt = floorShift a.toInt k := by
  rw [sar, BitVec.toInt_sshiftRight, floorShift, Int.shiftRight_eq_div_pow,
    Int.fdiv_eq_ediv_of_nonneg _ (by positivity)]
  norm_cast

theorem toInt_shl {w : Nat} (a : BitVec w) (k : Nat) : (shl a k).toInt = wrap w (a.toInt * 2 ^ k) := by
  rw [shl, wrap, BitVec.toInt_shiftLeft, Nat.shiftLeft_eq, Nat.cast_mul, BitVec.toInt_eq_toNat_bmod]
  simp

theorem toInt_divT {w : Nat} (a b : BitVec w) : (divT a b).toInt = wrap w (a.toInt.tdiv b.toInt) := BitVec.toInt_sdiv a b

theorem toInt_sext32 {w : Nat} (v : BitVec w) (h : w ≤ 32) : (sext32 v).toInt = v.toInt :=
  BitVec.toInt_signExtend_of_le h

theorem toInt_zext32 {w : Nat} (v : BitVec w) (h : w < 32) : (zext32 v).toInt = v.toNat := by
  rw [zext32, BitVec.toInt_setWidth, Int.bmod_eq_of_le]
  · omega
  · have h1 := v.isLt
    have h2 : 2 ^ w ≤ 2 ^ 31 := Nat.pow_le_pow_right (by omega) (by omega)
    norm_num at *; omega

theorem toInt_sext64 {w : Nat} (v : BitVec w) (h : w ≤ 64) : (sext64 v).toInt = v.toInt :=
  BitVec.toInt_signExtend_of_le h

theorem toInt_zext64 {w : Nat} (v : BitVec w) (h : w < 64) : (zext64 v).toInt = v.toNat := by
  rw [zext64, BitVec.toInt_setWidth, Int.bmod_eq_of_le]
  · omega
  · have h1 := v.isLt
    have h2 : 2 ^ w ≤ 2 ^ 63 := Nat.pow_le_pow_right (by omega) (by omega)
    norm_num at *; omega

theorem wrap_eq_self {n : Nat} {x : Int} (lo : -2 ^ n ≤ 2 * x) (hi : 2 * x < 2 ^ n) : wrap n x = x := by
  rw [wrap, Int.bmod_eq_of_le] <;> (push_cast; omega)

end Sys2Proof.Machine
end

