-- ==== Sys2Proof/Laws/Assembler.lean ====
section
/-! SUPPORT. What the pieces of the assembler do: numbers read back as they are written, the tokens of a written line, and
operands that are bytes. -/

namespace Sys2Proof.Machine

/-! ## Numbers -/

theorem digitValue_of_isDigit (c : Char) (h : c.isDigit = true) : digitValue c = some (c.toNat - 48) := by
  have : '0' ≤ c ∧ c ≤ '9' := by simpa [Char.isDigit, Char.le_def] using h
  simp [digitValue, this]

theorem digitsValue_of_isDigit (cs : List Char) (acc : Nat) (h : ∀ c ∈ cs, c.isDigit = true) :
    digitsValue 10 acc cs = some (Nat.ofDigitChars 10 cs acc) := by
  induction cs generalizing acc with
  | nil => rfl
  | cons c cs ih =>
    have hc := h c (by simp)
    have hlt : c.toNat - 48 < 10 := by
      simp only [Char.isDigit, Bool.and_eq_true, decide_eq_true_eq, UInt32.le_iff_toNat_le] at hc
      have : c.toNat = c.val.toNat := rfl
      have h9 : ('9' : Char).val.toNat = 57 := rfl
      omega
    simp only [digitsValue, digitValue_of_isDigit c hc, hlt, if_true, ih _ fun d hd => h d (by simp [hd])]
    rw [Nat.ofDigitChars_cons]
    congr 2
    rw [Nat.mul_comm]; rfl

/-- Decimal digits read back (R87). -/
theorem digitsValue_toDigits (n : Nat) : digitsValue 10 0 (Nat.toDigits 10 n) = some n := by
  rw [digitsValue_of_isDigit _ _ fun c hc => Nat.isDigit_of_mem_toDigits (by decide) (by decide) hc,
    Nat.ofDigitChars_toDigits (by decide) (by decide)]

/-- A number written in decimal reads back as itself (R87). -/
theorem numberOf_numberText (v : Int) : numberOf (numberText v) = some v := by
  obtain ⟨c, cs, h⟩ : ∃ c cs, Nat.toDigits 10 v.natAbs = c :: cs := List.exists_cons_of_ne_nil Nat.toDigits_ne_nil
  have hd : ∀ d ∈ c :: cs, d.isDigit = true := fun d hm =>
    Nat.isDigit_of_mem_toDigits (by decide) (by decide) (h ▸ hm)
  have hv := digitsValue_toDigits v.natAbs
  rw [h] at hv
  unfold numberText
  by_cases hn : v < 0
  · simp only [hn, if_true, h, numberOf, hv]
    simp only [Option.map_some, Option.some.injEq, Int.ofNat_eq_natCast]; omega
  · simp only [hn, if_false, h]
    have hx : cs.head? ≠ some 'x' := by
      intro hx
      have := hd 'x' (List.mem_cons_of_mem _ (List.mem_of_mem_head? (by simp [hx])))
      simp [Char.isDigit] at this
    have hm : c ≠ '-' := by
      rintro rfl
      simpa [Char.isDigit] using hd '-' (by simp)
    have : numberOf (c :: cs) = (digitsValue 10 0 (c :: cs)).map Int.ofNat := by
      unfold numberOf
      split <;> simp_all
    rw [this, hv]
    simp only [Option.map_some, Option.some.injEq, Int.ofNat_eq_natCast]; omega

/-! ## Tokens -/

@[simp] theorem lexLine_nil (cur : List Char) : lexLine cur [] = flushWord cur [] := by simp [lexLine]

@[simp] theorem lexLine_comma (cur cs : List Char) : lexLine cur (',' :: cs) = flushWord cur (.comma :: lexLine [] cs) := by
  simp [lexLine]

@[simp] theorem lexLine_space (cur cs : List Char) : lexLine cur (' ' :: cs) = flushWord cur (lexLine [] cs) := by
  simp [lexLine]

@[simp] theorem flushWord_nil (ts : List Token) : flushWord [] ts = ts := rfl

theorem flushWord_reverse (w : List Char) (ts : List Token) (h : w ≠ []) : flushWord w.reverse ts = .word w :: ts := by
  simp [flushWord, h]

/-- A character that ends no word and begins no arrow. -/
theorem lexLine_letter (c : Char) (cur cs : List Char) (h : c.isAlphanum = true ∨ c = '.') :
    lexLine cur (c :: cs) = lexLine (c :: cur) cs := by
  have hm : c ≠ '-' := by rintro rfl; simp at h
  have hs : c ≠ ';' := by rintro rfl; simp at h
  have hc : c ≠ ',' := by rintro rfl; simp at h
  have hw : c.isWhitespace = false := by
    by_contra hw
    simp only [Char.isWhitespace, Bool.not_eq_false, Bool.or_eq_true, decide_eq_true_eq] at hw
    rcases hw with ((rfl | rfl) | rfl) | rfl <;> simp at h
  cases cs <;> simp [lexLine, hm, hs, hc, hw]

/-- Letters, digits and dots are read into the word at hand. -/
theorem lexLine_word (w cur cs : List Char) (h : ∀ c ∈ w, c.isAlphanum = true ∨ c = '.') :
    lexLine cur (w ++ cs) = lexLine (w.reverse ++ cur) cs := by
  induction w generalizing cur with
  | nil => rfl
  | cons c w ih =>
    rw [List.cons_append, lexLine_letter c _ _ (h c (by simp)), ih _ fun d hd => h d (by simp [hd])]
    simp

/-- A number's text is read into one word. -/
theorem lexLine_numberText (v : Int) (cs : List Char) :
    lexLine [] (numberText v ++ cs) = lexLine (numberText v).reverse cs := by
  have hd : ∀ c ∈ Nat.toDigits 10 v.natAbs, c.isAlphanum = true ∨ c = '.' := fun c hc =>
    .inl (by simp [Char.isAlphanum, Nat.isDigit_of_mem_toDigits (by decide) (by decide) hc])
  unfold numberText
  by_cases hn : v < 0
  · obtain ⟨c, ds, h⟩ : ∃ c ds, Nat.toDigits 10 v.natAbs = c :: ds := List.exists_cons_of_ne_nil Nat.toDigits_ne_nil
    have hc : c ≠ '>' := by
      rintro rfl
      simpa using hd '>' (by simp [h])
    have hsign : lexLine [] ('-' :: (c :: (ds ++ cs))) = lexLine ['-'] (c :: (ds ++ cs)) := by
      rw [lexLine]
      · simp [Char.isWhitespace]
      · simp [hc]
    simp only [hn, if_true, h, List.cons_append]
    rw [hsign, ← List.cons_append, ← h, lexLine_word _ _ _ hd]
    simp [h]
  · simp only [hn, if_false]
    rw [lexLine_word _ _ _ hd, List.append_nil]

/-! ## Operands that are numbers -/

/-- Bytes written as operands stand for themselves, whatever names are bound (R87, R88). -/
theorem resolveOperands_byteOperands (names : List (HostName × Int)) (bs : List Byte) :
    resolveOperands names (byteOperands bs) = .ok (bs.map fun b => (b.toNat : Int)) := by
  induction bs with
  | nil => rfl
  | cons b bs ih =>
    show resolveOperands names (.number b.toNat :: byteOperands bs) = _
    simp [resolveOperands, resolveOperand, ih]

theorem asBytes_toNat (bs : List Byte) : asBytes (bs.map fun b => (b.toNat : Int)) = bs := by
  induction bs with
  | nil => rfl
  | cons b bs ih => simpa [asBytes] using ih

theorem fitsU8_toNat (bs : List Byte) : (bs.map fun b => (b.toNat : Int)).all fitsU8 = true := by
  simp only [List.all_map, List.all_eq_true]
  intro b _
  have := b.isLt
  simp [fitsU8]; omega

theorem fitsU16_toNat (v : Word16) : fitsU16 v.toNat = true := by
  have := v.isLt
  simp [fitsU16]; omega

theorem fitsI32_toInt (v : Word32) : fitsI32 v.toInt = true := by
  have h1 := BitVec.le_toInt v
  have h2 := @BitVec.toInt_lt 32 v
  norm_num at h1 h2
  simp [fitsI32]; omega

end Sys2Proof.Machine
end

