-- ==== Sys2Proof/Laws/Bytes.lean ====
section
/-! SUPPORT. Bytes and fields of records: the little-endian fields of spec R78 read back, and a record as one number. -/

namespace Sys2Proof

@[simp] theorem word16_bytes16 (v : Word16) : word16 (byteOf v 0) (byteOf v 1) = v := by
  ext i hi
  simp [word16, byteOf]
  grind

@[simp] theorem word32_bytes32 (v : Word32) : word32 (byteOf v 0) (byteOf v 1) (byteOf v 2) (byteOf v 3) = v := by
  ext i hi
  simp [word32, byteOf]
  grind

theorem bytes16_word16 (b0 b1 : Byte) : bytes16 (word16 b0 b1) = [b0, b1] := by
  simp only [bytes16, List.cons.injEq, and_true]
  constructor <;> (ext i hi; simp [word16, byteOf]; grind)

theorem bytes32_word32 (b0 b1 b2 b3 : Byte) : bytes32 (word32 b0 b1 b2 b3) = [b0, b1, b2, b3] := by
  simp only [bytes32, List.cons.injEq, and_true]
  refine ⟨?_, ?_, ?_, ?_⟩ <;> (ext i hi; simp [word32, byteOf]; grind)

/-- A command byte selects its own operation (R72). -/
@[simp] theorem opOf_commandByte (op : Op) : opOf op.commandByte = some op := by cases op <;> decide

theorem byteOf_toNat {w : Nat} (v : BitVec w) (k : Nat) : (byteOf v k).toNat = v.toNat / 2 ^ (8 * k) % 256 := by
  simp [byteOf, BitVec.extractLsb'_toNat, Nat.shiftRight_eq_div_pow]

@[simp] theorem recordNumber_cons (b : Byte) (rest : Record) : recordNumber (b :: rest) = b.toNat + 256 * recordNumber rest :=
  rfl

theorem recordNumber_bytes16 (v : Word16) : recordNumber (bytes16 v) = v.toNat := by
  have := v.isLt
  simp [bytes16, recordNumber, byteOf_toNat]; omega

theorem recordNumber_bytes32 (v : Word32) : recordNumber (bytes32 v) = v.toNat := by
  have := v.isLt
  simp [bytes32, recordNumber, byteOf_toNat]; omega

theorem recordNumber_append (a b : Record) : recordNumber (a ++ b) = recordNumber a + 256 ^ a.length * recordNumber b := by
  induction a with
  | nil => simp [recordNumber]
  | cons x xs ih => simp [ih, pow_succ]; ring

theorem recordNumber_lt (r : Record) : recordNumber r < 256 ^ r.length := by
  induction r with
  | nil => simp [recordNumber]
  | cons x xs ih => have := x.isLt; simp [pow_succ]; omega

@[simp] theorem bytes16_length (v : Word16) : (bytes16 v).length = 2 := rfl

@[simp] theorem bytes32_length (v : Word32) : (bytes32 v).length = 4 := rfl

/-- The bytes between two others are the number's digits there (R78): how a field is read out of a record. -/
theorem recordNumber_middle (a m b : Record) :
    recordNumber (a ++ m ++ b) / 2 ^ (8 * a.length) % 2 ^ (8 * m.length) = recordNumber m := by
  have ha := recordNumber_lt a
  have hm := recordNumber_lt m
  have hp : ∀ n, 2 ^ (8 * n) = 256 ^ n := fun n => by rw [pow_mul]; norm_num
  rw [hp, hp, List.append_assoc, recordNumber_append, recordNumber_append, Nat.add_mul_div_left _ _ (by positivity),
    Nat.div_eq_of_lt ha, Nat.zero_add, Nat.add_mul_mod_self_left, Nat.mod_eq_of_lt hm]

/-- `recordNumber_middle` for a field given by its bit positions. -/
theorem fieldOf_middle (a m b : Record) (hi lo : Nat) (hlo : lo = 8 * a.length) (hhi : hi + 1 = lo + 8 * m.length) :
    fieldOf (a ++ m ++ b) hi lo = recordNumber m := by
  rw [fieldOf, hlo, show hi + 1 - 8 * a.length = 8 * m.length by omega, recordNumber_middle]

end Sys2Proof
end

