-- ==== Sys2Proof/Laws/State.lean ====
section
/-! SUPPORT. One lemma per field and update of the state, so that no proof unfolds a record update. -/

namespace Sys2Proof.Machine

@[simp] theorem State.loadStore_calibValid (s : State) (c : Coeffs) :
    (s.loadStore c).calibValid = true := rfl

@[simp] theorem State.loadStore_coeffs (s : State) (c : Coeffs) :
    (s.loadStore c).coeffs = c := rfl

@[simp] theorem State.loadStore_config (s : State) (c : Coeffs) :
    (s.loadStore c).config = s.config := rfl

@[simp] theorem State.loadStore_pending (s : State) (c : Coeffs) :
    (s.loadStore c).pending = s.pending := rfl

@[simp] theorem State.loadStore_responses (s : State) (c : Coeffs) :
    (s.loadStore c).responses = s.responses := rfl

@[simp] theorem State.deliver_calibValid (s : State) (r : Record) :
    (s.deliver r).calibValid = s.calibValid := rfl

@[simp] theorem State.deliver_coeffs (s : State) (r : Record) :
    (s.deliver r).coeffs = s.coeffs := rfl

@[simp] theorem State.deliver_config (s : State) (r : Record) :
    (s.deliver r).config = s.config := rfl

@[simp] theorem State.deliver_pending (s : State) (r : Record) :
    (s.deliver r).pending = s.pending := rfl

@[simp] theorem State.deliver_responses (s : State) (r : Record) :
    (s.deliver r).responses = s.responses ++ [r] := rfl

@[simp] theorem State.raiseError_calibValid (s : State) (f : ResponseFormat) (e : Status) :
    (s.raiseError f e).calibValid = s.calibValid := rfl

@[simp] theorem State.raiseError_coeffs (s : State) (f : ResponseFormat) (e : Status) :
    (s.raiseError f e).coeffs = s.coeffs := rfl

@[simp] theorem State.raiseError_config (s : State) (f : ResponseFormat) (e : Status) :
    (s.raiseError f e).config = s.config := rfl

@[simp] theorem State.raiseError_pending (s : State) (f : ResponseFormat) (e : Status) :
    (s.raiseError f e).pending = s.pending := rfl

@[simp] theorem State.raiseError_responses (s : State) (f : ResponseFormat) (e : Status) :
    (s.raiseError f e).responses = s.responses ++ [errorRecord f e] := rfl

@[simp] theorem State.answerReserved_calibValid (s : State) :
    (s.answerReserved).calibValid = s.calibValid := rfl

@[simp] theorem State.answerReserved_coeffs (s : State) :
    (s.answerReserved).coeffs = s.coeffs := rfl

@[simp] theorem State.answerReserved_config (s : State) :
    (s.answerReserved).config = s.config := rfl

@[simp] theorem State.answerReserved_pending (s : State) :
    (s.answerReserved).pending = s.pending := rfl

@[simp] theorem State.answerReserved_responses (s : State) :
    (s.answerReserved).responses = s.responses ++ [errorRecord .rspErr .reservedOperation] := rfl

@[simp] theorem State.assertReset_calibValid (s : State) :
    (s.assertReset).calibValid = false := rfl

@[simp] theorem State.assertReset_coeffs (s : State) :
    (s.assertReset).coeffs = Coeffs.unwritten := rfl

@[simp] theorem State.assertReset_config (s : State) :
    (s.assertReset).config = s.config := rfl

@[simp] theorem State.assertReset_pending (s : State) :
    (s.assertReset).pending = s.pending := rfl

@[simp] theorem State.assertReset_responses (s : State) :
    (s.assertReset).responses = s.responses := rfl

@[simp] theorem State.idle_calibValid (s : State) :
    (s.idle).calibValid = s.calibValid := rfl

@[simp] theorem State.idle_coeffs (s : State) :
    (s.idle).coeffs = s.coeffs := rfl

@[simp] theorem State.idle_config (s : State) :
    (s.idle).config = s.config := rfl

@[simp] theorem State.idle_pending (s : State) :
    (s.idle).pending = s.pending := rfl

@[simp] theorem State.idle_responses (s : State) :
    (s.idle).responses = s.responses := rfl

@[simp] theorem State.issueNext_calibValid (s : State) (r : Record) :
    (s.issueNext r).calibValid = s.calibValid := rfl

@[simp] theorem State.issueNext_coeffs (s : State) (r : Record) :
    (s.issueNext r).coeffs = s.coeffs := rfl

@[simp] theorem State.issueNext_config (s : State) (r : Record) :
    (s.issueNext r).config = s.config := rfl

@[simp] theorem State.issueNext_pending (s : State) (r : Record) :
    (s.issueNext r).pending = .command r :: s.pending := rfl

@[simp] theorem State.issueNext_responses (s : State) (r : Record) :
    (s.issueNext r).responses = s.responses := rfl

@[simp] theorem State.withFetchWord_pending (s : State) (nbits w : Nat) :
    (s.withFetchWord nbits w).pending = .command (tableRecord nbits w) :: s.pending := rfl

@[simp] theorem State.takeInput_of_nil (s : State) (h : s.pending = []) : s.takeInput = none := by
  simp [State.takeInput, h]

theorem State.takeInput_of_cons (s : State) (x : HostInput) (rest : List HostInput) (h : s.pending = x :: rest) :
    s.takeInput = some (x, { s with pending := rest }) := by
  simp [State.takeInput, h]

@[simp] theorem State.store_of_ready (s : State) (h : s.calibValid = true) : s.store = .ready s.coeffs := by
  simp [State.store, h]

@[simp] theorem State.store_of_uninit (s : State) (h : s.calibValid = false) : s.store = .uninit := by
  simp [State.store, h]

theorem State.store_eq_ready_iff (s : State) (c : Coeffs) : s.store = .ready c ↔ s.calibValid = true ∧ s.coeffs = c := by
  by_cases h : s.calibValid = true <;> simp [State.store, h]

end Sys2Proof.Machine
end

