-- ==== Sys2Proof/Laws/Ops.lean ====
section
/-! SUPPORT. What each shared operation and each meaning can do, said once: the provers cite these instead of unfolding. -/

namespace Sys2Proof.Machine

/-- DECODE answers one of two next states (spec R100-R102). -/
theorem execDecode_cases (buf : List Byte) (s : State) :
    (buf.length = 42 ∧ execDecode buf s =
      .next ((s.loadStore (coeffsOfBuffer s.config buf)).deliver (decodeResponse (coeffsOfBuffer s.config buf)))) ∨
    (buf.length ≠ 42 ∧ execDecode buf s = .next (s.raiseError .rspDecode .invalidCalibrationLength)) := by
  by_cases h : buf.length = 42
  · exact .inl ⟨h, by simp [execDecode, calibLen, h]⟩
  · exact .inr ⟨h, by simp [execDecode, calibLen, h]⟩

/-- COMPT answers one of two next states (R136). -/
theorem execCompt_cases (rawT : Word32) (s : State) :
    (s.calibValid = true ∧ execCompt rawT s =
      .next (s.deliver (temperatureResponse (tempOutput (tempFine s.coeffs rawT)) (tempFine s.coeffs rawT)))) ∨
    (s.calibValid = false ∧ execCompt rawT s = .next (s.raiseError .rspT .notCalibrated)) := by
  cases h : s.calibValid
  · exact .inr ⟨rfl, by simp [execCompt, h]⟩
  · exact .inl ⟨rfl, by simp [execCompt, h]⟩

/-- COMPP answers one of two next states (R141). -/
theorem execCompp_cases (tFine rawP : Word32) (s : State) :
    (s.calibValid = true ∧ execCompp tFine rawP s =
      .next (s.deliver (pressureResponse (presOutput s.coeffs tFine rawP)))) ∨
    (s.calibValid = false ∧ execCompp tFine rawP s = .next (s.raiseError .rspP .notCalibrated)) := by
  cases h : s.calibValid
  · exact .inr ⟨rfl, by simp [execCompp, h]⟩
  · exact .inl ⟨rfl, by simp [execCompp, h]⟩

/-- COMPH answers one of two next states (R151). -/
theorem execComph_cases (tFine : Word32) (rawH : Word16) (s : State) :
    (s.calibValid = true ∧ execComph tFine rawH s =
      .next (s.deliver (humidityResponse (humOutput (humChain s.config.humForm s.coeffs tFine rawH))))) ∨
    (s.calibValid = false ∧ execComph tFine rawH s = .next (s.raiseError .rspH .notCalibrated)) := by
  cases h : s.calibValid
  · exact .inr ⟨rfl, by simp [execComph, h]⟩
  · exact .inl ⟨rfl, by simp [execComph, h]⟩

/-- UNPACK answers one of two next states (R180, R181). -/
theorem execUnpack_cases (buf : List Byte) (s : State) :
    (buf.length = 8 ∧ execUnpack buf s =
      .next (s.deliver (unpackResponse (burstPressure buf) (burstTemperature buf) (burstHumidity buf)))) ∨
    (buf.length ≠ 8 ∧ execUnpack buf s = .next (s.raiseError .rspU .invalidBurstLength)) := by
  by_cases h : buf.length = 8
  · exact .inl ⟨h, by simp [execUnpack, burstLen, h]⟩
  · exact .inr ⟨h, by simp [execUnpack, burstLen, h]⟩

/-- Everything a step with a next state can be: a wait, a reset, a command, or a reserved byte's answer. -/
theorem step_cases {s t : State} (h : step s = .next t) :
    (s.pending = [] ∧ t = s) ∨
    (∃ rest, s.pending = .reset :: rest ∧ t = State.assertReset { s with pending := rest }) ∨
    (∃ r rest i, s.pending = .command r :: rest ∧ decodeRecord r = .command i ∧ exec i { s with pending := rest } = .next t) ∨
    (∃ r rest, s.pending = .command r :: rest ∧ decodeRecord r = .reserved ∧
      t = State.answerReserved { s with pending := rest }) := by
  cases hp : s.pending with
  | nil => exact .inl ⟨rfl, by simpa [step, hp, State.idle] using h.symm⟩
  | cons x rest =>
    have ht := State.takeInput_of_cons s x rest hp
    cases x with
    | reset => exact .inr (.inl ⟨rest, rfl, by simpa [step, ht] using h.symm⟩)
    | command r =>
      cases hd : decodeRecord r with
      | command i => exact .inr (.inr (.inl ⟨r, rest, i, rfl, hd, by simpa [step, ht, hd] using h⟩))
      | reserved => exact .inr (.inr (.inr ⟨r, rest, rfl, hd, by simpa [step, ht, hd] using h.symm⟩))
      | notACommand why => simp [step, ht, hd] at h

/-- A record is a command only with its operation's command byte and operands (R72, R75). -/
theorem decodeRecord_eq_command_iff (r : Record) (i : Instr) :
    decodeRecord r = .command i ↔ ∃ b rest op, r = b :: rest ∧ opOf b = some op ∧ decodeOperands op rest = some i := by
  cases r with
  | nil => simp [decodeRecord]
  | cons b rest =>
    cases hb : opOf b with
    | none => simp [decodeRecord, hb]
    | some op => cases ho : decodeOperands op rest <;> simp [decodeRecord, hb, ho]

/-- A record is reserved exactly where its command byte selects no operation (R73). -/
theorem decodeRecord_eq_reserved_iff (b : Byte) (rest : Record) :
    decodeRecord (b :: rest) = .reserved ↔ opOf b = none := by
  cases hb : opOf b with
  | none => simp [decodeRecord, hb]
  | some op => cases ho : decodeOperands op rest <;> simp [decodeRecord, hb, ho]

/-- The command byte selects its operation, and no other byte does (R72). -/
theorem opOf_eq_some_iff (b : Byte) (op : Op) : opOf b = some op ↔ b = op.commandByte := by
  cases op <;> revert b <;> decide

/-- A byte selects no operation exactly where its fields are reserved (R71, R73). -/
theorem opOf_eq_none_iff (b : Byte) : opOf b = none ↔ 5 ≤ b.toNat % 8 ∨ b.toNat / 8 ≠ 0 := by
  revert b; decide

end Sys2Proof.Machine
end

