-- ==== Sys2Proof/Laws/HostProgram.lean ====
section
/-! SUPPORT. What the host's shared operations do: issuing one record, and looking names up after some are dropped. -/

namespace Sys2Proof.Machine

/-- A record that is a command is performed as `exec` says, and its response is the newest one (spec R70). -/
theorem issueRecord_of_command (s t : State) (r : Record) (i : Instr) (hd : decodeRecord r = .command i)
    (h : exec i s = .next t) : issueRecord s r = .ok (t, t.responses.getLastD []) := by
  have hs : step (s.issueNext r) = .next t := by
    simp only [step, State.takeInput_of_cons _ _ _ (State.issueNext_pending s r), hd]
    exact h
  simp [issueRecord, hs]

/-- A name that stays keeps its value. -/
theorem lookup_dropNames_of_not_mem (n : HostName) (names : List (HostName × Int)) (gone : List HostName) (h : n ∉ gone) :
    (dropNames names gone).lookup n = names.lookup n := by
  induction names with
  | nil => rfl
  | cons p names ih =>
    obtain ⟨m, v⟩ := p
    by_cases e : n = m
    · subst e; simp [dropNames, h]
    · have hne : (n == m) = false := by simpa using e
      by_cases hg : m ∈ gone <;> simpa [dropNames, hg, List.lookup_cons, hne] using ih

/-- A dropped name has no value. -/
theorem lookup_dropNames_of_mem (n : HostName) (names : List (HostName × Int)) (gone : List HostName) (h : n ∈ gone) :
    (dropNames names gone).lookup n = none := by
  induction names with
  | nil => rfl
  | cons p names ih =>
    obtain ⟨m, v⟩ := p
    by_cases hg : m ∈ gone
    · simpa [dropNames, hg] using ih
    · have hne : (n == m) = false := by simpa using fun e : n = m => hg (e ▸ h)
      simpa [dropNames, hg, List.lookup_cons, hne] using ih

/-- No host name is one of the names `measure` uses inside (log entry 9). -/
theorem not_mem_measureNames (n : HostName) (h : isHostName n = true) : n ∉ measureNames := by
  intro hm
  simp only [measureNames, List.mem_cons, List.not_mem_nil, or_false] at hm
  rcases hm with rfl | rfl | rfl | rfl <;> simp [isHostName] at h

end Sys2Proof.Machine
end

