-- ==== Sys2Proof/Laws/Operands.lean ====
section
/-! SUPPORT. What each shared operand form and each shared arithmetic step gives, as numbers: said once, cited by the
proofs. -/

namespace Sys2Proof.Machine

theorem lowNibble_toNat (b : Byte) : (lowNibble b).toNat = b.toNat % 16 := by simp [lowNibble]

theorem highNibble_toNat (b : Byte) : (highNibble b).toNat = b.toNat / 16 := by
  have := b.isLt
  simp [highNibble, BitVec.extractLsb'_toNat, Nat.shiftRight_eq_div_pow]; omega

/-- Spec R104: a pair is little-endian. -/
theorem u16le_toNat (buf : List Byte) (o : Nat) :
    (u16le buf o).toNat = (bufByte buf o).toNat + 256 * (bufByte buf (o + 1)).toNat := by
  have h := recordNumber_bytes16 (u16le buf o)
  rw [u16le, bytes16_word16] at h
  simpa [recordNumber, u16le] using h.symm

/-- Sign-extending a byte and adding a nibble below it (R120, R121). -/
theorem packNibble_toInt_signed (cfg : Config) (b : Byte) (n : BitVec 4) (h : cfg.h45MsbSigned = true) :
    (packNibble cfg b n).toInt = b.toInt * 16 + n.toNat := by
  simp only [packNibble, extendMsb, h, if_true, shl]
  revert b n; decide +kernel

/-- Zero-extending a byte and adding a nibble below it (R120, R121). -/
theorem packNibble_toNat_unsigned (cfg : Config) (b : Byte) (n : BitVec 4) (h : cfg.h45MsbSigned = false) :
    (packNibble cfg b n).toNat = b.toNat * 16 + n.toNat := by
  simp only [packNibble, extendMsb, h, shl]
  revert b n; decide +kernel

/-- R180: a 20-bit reading, most significant byte first. -/
theorem reading20_toNat (a b c : Byte) : (reading20 a b c).toNat = a.toNat * 4096 + b.toNat * 16 + c.toNat / 16 := by
  have := a.isLt; have := b.isLt; have := c.isLt
  rw [reading20, BitVec.toNat_setWidth, BitVec.toNat_append, BitVec.toNat_append, highNibble_toNat,
    ← Nat.shiftLeft_add_eq_or_of_lt (by omega), ← Nat.shiftLeft_add_eq_or_of_lt (by omega), Nat.shiftLeft_eq,
    Nat.shiftLeft_eq]
  omega

/-- R180: a 16-bit reading, most significant byte first. -/
theorem reading16_toNat (a b : Byte) : (reading16 a b).toNat = a.toNat * 256 + b.toNat := by
  have := b.isLt
  rw [reading16, BitVec.toNat_append, ← Nat.shiftLeft_add_eq_or_of_lt (by omega), Nat.shiftLeft_eq]

theorem clampS_toInt (v lo hi : Word32) : (clampS v lo hi).toInt = clampInt v.toInt lo.toInt hi.toInt := by
  simp only [clampS, clampInt, BitVec.slt_iff_toInt_lt]
  split
  · rfl
  · split <;> rfl

theorem minS_toInt (a b : Word32) : (minS a b).toInt = min a.toInt b.toInt := by
  simp only [minS, BitVec.slt_iff_toInt_lt]
  split <;> omega

theorem clampInt_bounds (v lo hi : Int) (h : lo ≤ hi) : lo ≤ clampInt v lo hi ∧ clampInt v lo hi ≤ hi := by
  simp only [clampInt]; split
  · omega
  · split <;> omega

end Sys2Proof.Machine
end

