-- ==== Sys2Proof/Laws/PerInstr.lean ====
section
/-! SUPPORT. The family of statements made once per command: the shape of its record. -/

namespace Sys2Proof.Laws.CommandShape

/-- A command is well formed, its record begins with its own command byte, which selects it again (spec R72), and has its
format's fixed length where it has one (R75, R76). -/
def Statement (i : Instr) : Prop :=
  i.wellFormed = true ∧ (encode i).head? = some i.op.commandByte ∧ opOf i.op.commandByte = some i.op ∧
    ∀ n, i.op.fixedBytes = some n → (encode i).length = n

theorem decode (buf : List Byte) : Statement (.decode buf) := by
  refine ⟨rfl, rfl, opOf_commandByte _, fun n h => ?_⟩; simp [Instr.op, Op.fixedBytes] at h

theorem compt (rawT : Word32) : Statement (.compt rawT) := by
  refine ⟨rfl, rfl, opOf_commandByte _, fun n h => ?_⟩; simpa [Instr.op, Op.fixedBytes, encode, Instr.operandBytes] using h

theorem compp (tFine rawP : Word32) : Statement (.compp tFine rawP) := by
  refine ⟨rfl, rfl, opOf_commandByte _, fun n h => ?_⟩; simpa [Instr.op, Op.fixedBytes, encode, Instr.operandBytes] using h

theorem comph (tFine : Word32) (rawH : Word16) : Statement (.comph tFine rawH) := by
  refine ⟨rfl, rfl, opOf_commandByte _, fun n h => ?_⟩; simpa [Instr.op, Op.fixedBytes, encode, Instr.operandBytes] using h

theorem unpack (buf : List Byte) : Statement (.unpack buf) := by
  refine ⟨rfl, rfl, opOf_commandByte _, fun n h => ?_⟩; simp [Instr.op, Op.fixedBytes] at h

end Sys2Proof.Laws.CommandShape
end

