-- ==== Sys2Proof/Tests/Slice0.lean ====
section
/-! SUPPORT. The model's own tests: each expected value is spec/95_test_vectors.md's or worked by hand from the rule named;
then the witnesses that the statements' hypotheses can be met. -/

open Sys2Proof Sys2Proof.Machine Sys2Proof.Claims

namespace Sys2Proof.Tests

/-! ## Small states -/

/-- A block that holds these coefficients. -/
def readyWith (c : Coeffs) : State := { State.reset with calibValid := true, coeffs := c }

/-- The same block with HUM_FORM = SHIFT. -/
def readyShift (c : Coeffs) : State := { readyWith c with config := { h45MsbSigned := true, humForm := .shift } }

/-- A block just reset, with this record issued. -/
def issued (r : Record) : State := State.reset.issueNext r

/-- The response of a command in a state. -/
def answer (i : Instr) (s : State) : Option Record := (nextOf (exec i s)).bind lastResponse

/-- The coefficients of buffer B1 (95_test_vectors.md, section 2). -/
def b1Coeffs : Coeffs :=
  { t1 := 27504, t2 := 26435, t3 := BitVec.ofInt 16 (-1000), p1 := 36477, p2 := BitVec.ofInt 16 (-10685), p3 := 3024,
    p4 := 2855, p5 := 140, p6 := BitVec.ofInt 16 (-7), p7 := 15500, p8 := BitVec.ofInt 16 (-14600), p9 := 6000,
    h1 := 75, h2 := 362, h3 := 0, h4 := 313, h5 := 50, h6 := 30 }

/-- Buffer B1 (95_test_vectors.md, section 2). -/
def b1 : List Byte :=
  [0x70, 0x6B, 0x43, 0x67, 0x18, 0xFC, 0x7D, 0x8E, 0x43, 0xD6, 0xD0, 0x0B, 0x27, 0x0B, 0x8C, 0x00, 0xF9, 0xFF, 0x8C, 0x3C,
   0xF8, 0xC6, 0x70, 0x17, 0x00, 0x4B] ++ [0x6A, 0x01, 0x00, 0x13, 0x29, 0x03, 0x1E] ++ List.replicate 9 0

/-- 42 zero bytes. -/
def zeros42 : List Byte := List.replicate 42 0

/-- Burst U1 (95_test_vectors.md). -/
def u1 : List Byte := [0x12, 0x34, 0x5F, 0x65, 0x43, 0x2F, 0x80, 0x00]

/-- Burst U2: U1 with other low nibbles in bytes 2 and 5. -/
def u2 : List Byte := [0x12, 0x34, 0x50, 0x65, 0x43, 0x20, 0x80, 0x00]

/-! ## Decoding (R71, R75, R78; words written out from the formats) -/

theorem test_decode_compt : decodeRecord [0x01, 0xD0, 0xEE, 0x07, 0x00] = .command (.compt 519888) := by decide

theorem test_decode_compp :
    decodeRecord [0x02, 0x01, 0x00, 0x00, 0x80, 0xFF, 0xFF, 0xFF, 0x7F] = .command (.compp 0x80000001 0x7FFFFFFF) := by decide

theorem test_decode_comph : decodeRecord [0x03, 0x04, 0x03, 0x02, 0x01, 0x06, 0x05] = .command (.comph 0x01020304 0x0506) := by
  decide

theorem test_decode_decode : decodeRecord [0x00, 0xAB, 0xCD] = .command (.decode [0xAB, 0xCD]) := by decide

theorem test_decode_unpack : decodeRecord (0x04 :: u1) = .command (.unpack u1) := by decide

theorem test_decode_reserved : decodeRecord [0x05] = .reserved ∧ decodeRecord [0x08, 0x00] = .reserved ∧
    decodeRecord [0xFF] = .reserved := by decide

theorem test_decode_wrong_length : decodeRecord [0x01, 0, 0, 0] = .notACommand (.wrongLength .compt 4) ∧
    decodeRecord [] = .notACommand .emptyRecord := by decide

theorem test_table_words : decodeTableWord 8 0x01 = some (.compt 0) ∧ decodeTableWord 40 0x07EED001 = some (.compt 519888) ∧
    decodeTableWord 8 0x00 = some (.decode zeros42) ∧ decodeTableWord 8 0x05 = none := by decide

/-! ## Well-formedness: an ill-formed term for each check -/

theorem test_wf_byte : fitsU8 255 = true ∧ fitsU8 256 = false ∧ fitsU8 (-1) = false := by decide

theorem test_wf_u16 : fitsU16 65535 = true ∧ fitsU16 65536 = false ∧ fitsU16 (-1) = false := by decide

theorem test_wf_i32 : fitsI32 (-2147483648) = true ∧ fitsI32 (-2147483649) = false ∧ fitsI32 2147483648 = false := by decide

theorem test_wf_counts : Verb.operandsFit .compt [] = false ∧ Verb.operandsFit .compp [1] = false ∧
    Verb.operandsFit .comph [1, 65536] = false ∧ Verb.operandsFit .cmd [] = false ∧ Verb.operandsFit .decode [] = true ∧
    Verb.operandsFit .unpack [256] = false ∧ Verb.operandsFit .measure [1, 2] = false := by decide

/-! ## DECODE -/

/-- Vector D1: the coefficients and the response. -/
theorem test_decode_b1 : (nextOf (exec (.decode b1) State.reset)).map State.store = some (.ready b1Coeffs) ∧
    (answer (.decode b1) State.reset).map (·.take 7) = some [0x00, 0x70, 0x6B, 0x43, 0x67, 0x18, 0xFC] ∧
    (answer (.decode b1) State.reset).map (·.drop 25) =
      some [0x4B, 0x00, 0x6A, 0x01, 0x00, 0x00, 0x39, 0x01, 0x32, 0x00, 0x1E, 0x00] := by decide

/-- Vectors D4b and D4c: the packed fields, with both values of H45_MSB_SIGNED. -/
theorem test_decode_packed :
    (packNibble { h45MsbSigned := true, humForm := .div } 0xCD (highNibble 0xAB)).toInt = -806 ∧
    (packNibble { h45MsbSigned := false, humForm := .div } 0xCD (highNibble 0xAB)).toInt = 3290 ∧
    (packNibble { h45MsbSigned := true, humForm := .div } 0x12 (lowNibble 0xAB)).toInt = 299 ∧
    (packNibble { h45MsbSigned := true, humForm := .div } 0x00 (highNibble 0xF0)).toInt = 15 := by decide

/-! ## COMPT -/

/-- Vector X4 (the source's example, corrected by 90_conflicts.md C1). -/
theorem test_compt_example : answer (.compt 519888) (readyWith b1Coeffs) =
    some [0x00, 0xCC, 0x09, 0x00, 0x00, 0xA6, 0xF5, 0x01, 0x00] := by decide

/-- Vector T5: the square wraps; TEMP 1, T_FINE 64. -/
theorem test_compt_wraps :
    answer (.compt 0) (readyWith { Coeffs.unwritten with t1 := 65535, t3 := BitVec.ofInt 16 (-32768) }) =
      some [0x00, 1, 0, 0, 0, 64, 0, 0, 0] := by decide

/-! ## COMPP -/

/-- Program 1, row 4: PRES 25767233. -/
theorem test_compp_typical : answer (.compp 128422 415148) (readyWith b1Coeffs) = some [0x00, 0x41, 0x2D, 0x89, 0x01] := by
  decide

/-- Vector P6: p = 0, then P7 << 4 = -524288 wraps into u32 as 4294443008 = 0xFFF80000. -/
theorem test_compp_negative :
    answer (.compp 128000 1048576) (readyWith { Coeffs.unwritten with p1 := 1, p7 := BitVec.ofInt 16 (-32768) }) =
      some [0x00, 0x00, 0x00, 0xF8, 0xFF] := by decide

/-! ## COMPH -/

/-- The coefficients of vector H7. -/
def h7Coeffs : Coeffs :=
  { Coeffs.unwritten with h1 := 95, h2 := 6080, h3 := 61, h4 := 677, h5 := 1409, h6 := BitVec.ofInt 8 (-31) }

/-- Vector H7: 36117 = 0x8D15 with DIV, 36142 = 0x8D2E with SHIFT. -/
theorem test_comph_forms : answer (.comph 129526 37245) (readyWith h7Coeffs) = some [0x00, 0x15, 0x8D, 0x00, 0x00] ∧
    answer (.comph 129526 37245) (readyShift h7Coeffs) = some [0x00, 0x2E, 0x8D, 0x00, 0x00] := by decide

/-- Vectors H2 and H3: both clamps; 102400 = 0x19000. -/
theorem test_comph_clamps : answer (.comph 128422 0) (readyWith b1Coeffs) = some [0x00, 0, 0, 0, 0] ∧
    answer (.comph 128422 65535) (readyWith b1Coeffs) = some [0x00, 0x00, 0x90, 0x01, 0x00] := by decide

/-! ## UNPACK -/

/-- Vectors U2 and U6: the readings, in Uninit, with the low nibbles 0. -/
theorem test_unpack_burst : answer (.unpack u2) State.reset =
    some [0x00, 0x45, 0x23, 0x01, 0x00, 0x32, 0x54, 0x06, 0x00, 0x00, 0x80] := by decide

/-- Vector U5: 9 bytes. -/
theorem test_unpack_long : answer (.unpack (u1 ++ [0])) State.reset = some [0x03, 0, 0, 0, 0, 0, 0, 0, 0, 0, 0] := by decide

/-! ## Steps -/

/-- Vector X1. -/
theorem test_step_reserved : (nextOf (step (issued [0x05]))).bind lastResponse = some [0x04] := by decide

/-- R230: a reset input after a DECODE. -/
theorem test_step_reset : (nextOf (step { readyWith b1Coeffs with pending := [.reset] })).map State.store = some .uninit := by
  decide

/-- The first command after reset is the one placed. -/
theorem test_fetch_word : (nextOf (step (State.reset.withFetchWord 8 0x00))).map State.store = some (.ready Coeffs.unwritten) := by
  decide

/-! ## The host side (R87-R90) -/

/-- R87 and vector T6: capitals, a negative number, a comment. -/
theorem test_asm_text :
    parseLine ['C', 'O', 'M', 'P', 'T', ' ', '-', '8', ';', 'x'] =
      .ok (some { verb := .compt, operands := [.number (-8)], binds := [] }) ∧
    lineRecord .compt [-8] = .ok [0x01, 0xF8, 0xFF, 0xFF, 0xFF] := ⟨rfl, rfl⟩

/-- R87 and R88: hexadecimal, a name, an arrow. -/
theorem test_asm_names :
    parseLine ['c', 'o', 'm', 'p', 'h', ' ', 't', 'f', ',', '0', 'x', '7', '5', '3', '0', '-', '>', 'H'] =
      .ok (some { verb := .comph, operands := [.name ['t', 'f'], .number 30000], binds := [['H']] }) := rfl

/-- R88: a name before its binding is refused. -/
theorem test_asm_unbound :
    runLine { block := State.reset, names := [] } { verb := .compt, operands := [.name ['x']], binds := [] } =
      .error (.refusedLine (.unboundName ['x'])) := rfl

/-- Log entry 9: a name given twice takes the later field, here RAW_T of burst U1 over RAW_P; `A` is not `a`. -/
theorem test_asm_rebinding :
    (runLine { block := State.reset, names := [(['A'], 5)] }
      { verb := .unpack, operands := byteOperands u1, binds := [['a'], ['a']] }).toOption.map
        (fun r => (r.1.names.lookup ['a'], r.1.names.lookup ['A'])) = some (some 414770, some 5) := by decide

/-- R90. -/
theorem test_disassemble_reserved : disassemble [0x05, 0x0C] =
    some { verb := .cmd, operands := [.number 5, .number 12], binds := [] } ∧
    lineText { verb := .cmd, operands := [.number 5, .number 12], binds := [] } =
      ['.', 'c', 'm', 'd', ' ', '5', ',', ' ', '1', '2'] := by decide

/-- R89 in Uninit: `measure` stops at COMPT's NotCalibrated after two responses and binds nothing. -/
theorem test_measure_stops :
    (runLine { block := State.reset, names := [] }
      { verb := .measure, operands := byteOperands u1, binds := [['T'], ['P'], ['H']] }).toOption.map
        (fun r => (r.1.names, r.1.block.responses.length, r.2)) = some ([], 2, false) := by decide

/-! ## Witnesses: the statements' hypotheses can be met, at the ends of their ranges -/

theorem witness_wellFormed : (Instr.compt 0x80000000).wellFormed = true := by decide

theorem witness_encodeOfDecode : decodeRecord [0x03, 0, 0, 0, 0, 0xFF, 0xFF] = .command (.comph 0 0xFFFF) := by decide

theorem witness_reserved_op : 5 ≤ (0x05 : Byte).toNat % 8 ∧ 5 ≤ (0x07 : Byte).toNat % 8 ∧
    (issued [0x05]).pending = .command (0x05 :: []) :: [] := by decide

theorem witness_reserved_rsv : (0x08 : Byte).toNat / 8 ≠ 0 ∧ (0xF8 : Byte).toNat / 8 ≠ 0 := by decide

theorem witness_wrongLength_compt : bitLength ((0x01 : Byte) :: [0, 0, 0]) ≠ 40 ∧ bitLength ((0x01 : Byte) :: [0, 0, 0, 0, 0]) ≠ 40 ∧
    (issued [0x01, 0, 0, 0]).pending = .command (0x01 :: [0, 0, 0]) :: [] := by decide

theorem witness_wrongLength_compp : bitLength ((0x02 : Byte) :: [0, 0, 0, 0]) ≠ 72 ∧
    (issued [0x02, 0, 0, 0, 0]).pending = .command (0x02 :: [0, 0, 0, 0]) :: [] := by decide

theorem witness_wrongLength_comph : bitLength ((0x03 : Byte) :: []) ≠ 56 ∧
    (issued [0x03]).pending = .command (0x03 :: []) :: [] := by decide

theorem witness_bufferOffset : 0 < u1.length ∧ 7 < u1.length := by decide

theorem witness_hasALine : (∀ why, decodeRecord [0x08] ≠ .notACommand why) ∧ decodeRecord [0x08] = .reserved ∧
    (∀ why, decodeRecord [0x01, 0, 0, 0, 0x80] ≠ .notACommand why) ∧
    decodeRecord [0x01, 0, 0, 0, 0x80] = .command (.compt 0x80000000) := by
  have h1 : decodeRecord [0x08] = .reserved := by decide
  have h2 : decodeRecord [0x01, 0, 0, 0, 0x80] = .command (.compt 0x80000000) := by decide
  exact ⟨fun _ => by rw [h1]; simp, h1, fun _ => by rw [h2]; simp, h2⟩

theorem witness_disassemble : disassemble [0x08] = some { verb := .cmd, operands := [.number 8], binds := [] } ∧
    disassemble [0x01, 0, 0, 0, 0x80] = some { verb := .compt, operands := [.number (-2147483648)], binds := [] } := by decide

theorem witness_stepRuns : (issued [0x01, 0, 0, 0, 0]).pending = .command [0x01, 0, 0, 0, 0] :: [] ∧
    decodeRecord [0x01, 0, 0, 0, 0] = .command (.compt 0) ∧ (Instr.compt 0).wellFormed = true := by decide

theorem witness_resetInput : { readyWith b1Coeffs with pending := [.reset] }.pending = .reset :: [] := rfl

theorem witness_idle : State.reset.pending = [] := rfl

theorem witness_emptyRecord : (issued []).pending = .command [] :: [] := rfl

theorem witness_notALoadingDecode : (¬ ∃ buf, Instr.compt 0 = .decode buf ∧ buf.length = 42) ∧
    ¬ ∃ buf, Instr.decode [] = .decode buf ∧ buf.length = 42 := by simp

theorem witness_stepTakesOne : ∃ t, step (issued [0x05]) = .next t := ⟨_, rfl⟩

theorem witness_buffer42 : b1.length = 42 ∧ zeros42.length = 42 := by decide

theorem witness_bufferNot42 : (zeros42.take 41).length ≠ 42 ∧ (zeros42 ++ [0]).length ≠ 42 := by decide

theorem witness_sameConfig : State.reset.config.h45MsbSigned = (readyShift b1Coeffs).config.h45MsbSigned := rfl

/-- 42 zero bytes but for offsets 24, 33 and 41. -/
def unusedSet : List Byte := List.replicate 24 0 ++ [0xFF] ++ List.replicate 8 0 ++ [0xFF] ++ List.replicate 7 0 ++ [0xFF]

theorem witness_unusedBytes : zeros42.length = 42 ∧ unusedSet.length = 42 ∧ zeros42 ≠ unusedSet ∧
    ∀ i, i < 33 → i ≠ 24 → zeros42.getD i 0 = unusedSet.getD i 0 := by decide

theorem witness_inRange_signed :
    { b1Coeffs with h4 := BitVec.ofInt 16 (-2048), h5 := 2047 }.inRange Config.default ∧ (List.replicate 9 (0 : Byte)).length = 9 := by
  unfold Coeffs.inRange packedInRange; decide

theorem witness_inRange_unsigned :
    { b1Coeffs with h4 := 4095, h5 := 0 }.inRange { h45MsbSigned := false, humForm := .div } := by
  unfold Coeffs.inRange packedInRange; decide

theorem witness_decodeChanges : ∃ t, exec (.decode b1) State.reset = .next t ∧ (t.coeffs ≠ State.reset.coeffs) := by
  exact ⟨_, rfl, by decide⟩

theorem witness_laterDecode : ∃ t t₀, exec (.decode b1) (readyWith h7Coeffs) = .next t ∧
    exec (.decode b1) { State.reset with config := (readyWith h7Coeffs).config } = .next t₀ := ⟨_, _, rfl, rfl⟩

theorem witness_repeatedDecode : ∃ t u, exec (.decode b1) State.reset = .next t ∧ exec (.decode b1) t = .next u :=
  ⟨_, _, rfl, rfl⟩

theorem witness_storeInRange : (readyWith b1Coeffs).storeInRange ∧ ∃ t, step (readyWith b1Coeffs) = .next t := by
  refine ⟨fun _ => ?_, _, rfl⟩
  unfold Coeffs.inRange packedInRange; decide

theorem witness_ready : (readyWith b1Coeffs).calibValid = true := rfl

theorem witness_uninit : State.reset.calibValid = false := rfl

theorem witness_zeroNorm : normOf { b1Coeffs with p1 := 0 } 128422 = 0 ∧
    normOf { Coeffs.unwritten with p1 := 1, p2 := BitVec.ofInt 16 (-32768) } 1176576 = 0 := by decide

/-- Coefficients and operands that make the division of R147 divide -2^63 by -1 (worked by hand: v1 = 26216 * 2^16). -/
def overflowCoeffs : Coeffs := { Coeffs.unwritten with p1 := 1, p2 := BitVec.ofInt 16 (-20), p6 := 3 }

theorem witness_divisionOverflow : (readyWith overflowCoeffs).calibValid = true ∧ normOf overflowCoeffs 1718219776 = -1 ∧
    dividendOf overflowCoeffs 1718219776 172343936 = -2 ^ 63 := by decide

theorem witness_scale : (BitVec.ofInt 32 (-1)).toInt < 0 ∧ ¬ (2 ^ 1 : Int) ∣ (BitVec.ofInt 32 (-1)).toInt ∧ 30 < 31 := by decide

theorem witness_comphNext : (∃ t, exec (.comph 128422 65535) (readyWith b1Coeffs) = .next t) ∧
    ∃ t, exec (.comph 0 0) State.reset = .next t := ⟨⟨_, rfl⟩, ⟨_, rfl⟩⟩

theorem witness_burst8 : u1.length = 8 := by decide

theorem witness_burstNot8 : (u1.take 7).length ≠ 8 ∧ (u1 ++ [0]).length ≠ 8 := by decide

theorem witness_discardedNibbles : u1.length = 8 ∧ u2.length = 8 ∧ u1 ≠ u2 ∧
    (∀ i, i < 8 → i ≠ 2 → i ≠ 5 → byteNat u1 i = byteNat u2 i) ∧ byteNat u1 2 / 16 = byteNat u2 2 / 16 ∧
    byteNat u1 5 / 16 = byteNat u2 5 / 16 := by decide

theorem witness_errorStep : ∃ t, step (issued [0x05]) = .next t ∧ t.responses = (issued [0x05]).responses ++ [[0x04]] ∧
    succeeded [0x04] = false := ⟨_, rfl, rfl, rfl⟩

theorem witness_validCleared : ∃ t, step { readyWith b1Coeffs with pending := [.reset] } = .next t ∧
    (readyWith b1Coeffs).calibValid = true ∧ t.calibValid = false := ⟨_, rfl, rfl, rfl⟩

theorem witness_validSet : ∃ t, step (issued (0x00 :: b1)) = .next t ∧ (issued (0x00 :: b1)).calibValid = false ∧
    t.calibValid = true := ⟨_, rfl, rfl, rfl⟩

theorem witness_responsesWellFormed : { State.reset with responses := [[0x04], [0x00, 1, 2, 3, 4]] }.responsesWellFormed ∧
    ∃ t, step { State.reset with responses := [[0x04], [0x00, 1, 2, 3, 4]] } = .next t := ⟨rfl, _, rfl⟩

theorem witness_readers_temperature : sameT b1Coeffs { b1Coeffs with p1 := 0, h1 := 0 } := ⟨rfl, rfl, rfl⟩

theorem witness_readers_pressure : sameP b1Coeffs { b1Coeffs with t1 := 0, h1 := 0 } :=
  ⟨rfl, rfl, rfl, rfl, rfl, rfl, rfl, rfl, rfl⟩

theorem witness_readers_humidity : sameH b1Coeffs { b1Coeffs with t1 := 0, p1 := 0 } ∧
    (readyWith b1Coeffs).config.humForm = State.reset.config.humForm := ⟨⟨rfl, rfl, rfl, rfl, rfl, rfl⟩, rfl⟩

theorem witness_readers_uninit : State.reset.calibValid = { State.reset with coeffs := b1Coeffs }.calibValid ∧
    State.reset.config = { State.reset with coeffs := b1Coeffs }.config := ⟨rfl, rfl⟩

theorem witness_measure : (readyWith b1Coeffs).calibValid = true ∧ (readyWith b1Coeffs).pending = [] ∧ u1.length = 8 ∧
    resolveOperands [] (byteOperands u1) = .ok (byteValues u1) ∧ isHostName ['T'] = true ∧ isHostName ['t'] = true ∧
    isHostName ['r', 'h', '_', '1'] = true ∧ ['T'] ≠ ['t'] := ⟨rfl, rfl, rfl, rfl, rfl, rfl, rfl, by decide⟩

/-- A byte of the burst given by a name. -/
theorem witness_measure_byName :
    resolveOperands [(['x'], 18)] (.name ['x'] :: byteOperands (u1.drop 1)) = .ok (byteValues u1) := rfl

theorem witness_measureFails : State.reset.calibValid = false ∧ State.reset.pending = [] ∧ u1.length = 8 ∧
    resolveOperands [(['T'], 7)] (byteOperands u1) = .ok (byteValues u1) := ⟨rfl, rfl, rfl, rfl⟩

end Sys2Proof.Tests
end

section
/-! What `exec` can do to the coefficient store: a DECODE of 42 bytes loads it (spec R32, R100), and every other command
only hands out a response. -/

namespace Sys2Proof.Machine

/-- `i` is a DECODE whose buffer has the length R101 asks for. -/
def LoadsStore (i : Instr) : Prop := ∃ buf, i = .decode buf ∧ buf.length = 42

/-- R100: with 42 bytes DECODE loads the whole store and answers with it. -/
theorem exec_decode_of_length {buf : List Byte} (s : State) (hlen : buf.length = 42) :
    exec (.decode buf) s =
      .next ((s.loadStore (coeffsOfBuffer s.config buf)).deliver (decodeResponse (coeffsOfBuffer s.config buf))) := by
  obtain ⟨-, hload⟩ | ⟨hne, -⟩ := execDecode_cases buf s
  · exact hload
  · exact absurd hlen hne

/-- Every command but a DECODE of 42 bytes does nothing to the block: it hands one response to the host. An error is such
a response too (R204). -/
theorem exec_eq_deliver_of_not_loadsStore {i : Instr} (s : State) (hi : ¬ LoadsStore i) :
    ∃ r, exec i s = .next (s.deliver r) := by
  cases i with
  | decode buf =>
    obtain ⟨hlen, -⟩ | ⟨-, herr⟩ := execDecode_cases buf s
    · exact absurd ⟨buf, rfl, hlen⟩ hi
    · exact ⟨_, herr⟩
  | compt rawT => obtain ⟨-, hnext⟩ | ⟨-, hnext⟩ := execCompt_cases rawT s <;> exact ⟨_, hnext⟩
  | compp tFine rawP => obtain ⟨-, hnext⟩ | ⟨-, hnext⟩ := execCompp_cases tFine rawP s <;> exact ⟨_, hnext⟩
  | comph tFine rawH => obtain ⟨-, hnext⟩ | ⟨-, hnext⟩ := execComph_cases tFine rawH s <;> exact ⟨_, hnext⟩
  | unpack buf => obtain ⟨-, hnext⟩ | ⟨-, hnext⟩ := execUnpack_cases buf s <;> exact ⟨_, hnext⟩

/-- The frame of every command but a DECODE of 42 bytes: the registers and CALIB_VALID stay (R32). -/
theorem exec_keeps_store_of_not_loadsStore {i : Instr} {s t : State} (hi : ¬ LoadsStore i) (h : exec i s = .next t) :
    t.coeffs = s.coeffs ∧ t.calibValid = s.calibValid := by
  obtain ⟨r, hr⟩ := exec_eq_deliver_of_not_loadsStore s hi
  obtain rfl : s.deliver r = t := by simpa [hr] using h
  exact ⟨rfl, rfl⟩

/-- After a DECODE of 42 bytes the block is Ready with the buffer's coefficients; of the state before it only the
parameters count (R32, R103). -/
theorem exec_decode_sets_store {buf : List Byte} {s t : State} (hlen : buf.length = 42)
    (h : exec (.decode buf) s = .next t) : t.calibValid = true ∧ t.coeffs = coeffsOfBuffer s.config buf := by
  obtain rfl : (s.loadStore _).deliver _ = t := by simpa [exec_decode_of_length s hlen] using h
  exact ⟨rfl, rfl⟩

/-- Settles O24: the only command that is not a mere answer is the DECODE of 42 bytes, and what it loads depends on the
buffer and the parameters alone. -/
theorem onlyASuccessfulDecodeWritesTheStore : Obligations.OnlyASuccessfulDecodeWritesTheStore := by
  constructor
  · intro i s t h hchange
    by_cases hi : LoadsStore i
    · obtain ⟨buf, rfl, hlen⟩ := hi
      exact ⟨buf, rfl, hlen, (exec_decode_sets_store hlen h).1⟩
    · obtain ⟨hcoeffs, hvalid⟩ := exec_keeps_store_of_not_loadsStore hi h
      exact absurd hchange (by simp [hcoeffs, hvalid])
  · intro buf s t t₀ hlen h h₀
    obtain ⟨hvalid, hcoeffs⟩ := exec_decode_sets_store hlen h
    obtain ⟨hvalid₀, hcoeffs₀⟩ := exec_decode_sets_store hlen h₀
    have hsame : t.coeffs = t₀.coeffs := hcoeffs.trans hcoeffs₀.symm
    simp [hvalid, hvalid₀, hsame]

end Sys2Proof.Machine
end

section
/-! Which calibration bytes DECODE reads (spec R61): its field extractions give the same on two buffers that agree below
offset 33 outside offset 24. -/

namespace Sys2Proof.Machine

section
variable {buf buf' : List Byte} (hagree : ∀ i, i < 33 → i ≠ 24 → buf.getD i 0 = buf'.getD i 0)
include hagree

/-- A read byte is the same in both buffers. -/
theorem bufByte_eq_of_agree {i : Nat} (hlt : i < 33) (hne : i ≠ 24) : bufByte buf i = bufByte buf' i :=
  hagree i hlt hne

/-- A pair is the same in both buffers if it holds neither offset 24 nor an offset from 33 on. -/
theorem u16le_eq_of_agree {o : Nat} (hlt : o + 1 < 33) (hne : o ≠ 24) (hne' : o + 1 ≠ 24) :
    u16le buf o = u16le buf' o :=
  congrArg₂ word16 (bufByte_eq_of_agree hagree (by omega) hne) (bufByte_eq_of_agree hagree hlt hne')

/-- A signed pair has the pattern of the unsigned one, so it reads the same bytes. -/
theorem s16le_eq_of_agree {o : Nat} (hlt : o + 1 < 33) (hne : o ≠ 24) (hne' : o + 1 ≠ 24) :
    s16le buf o = s16le buf' o :=
  u16le_eq_of_agree hagree hlt hne hne'

/-- R105-R122 name no offset at which the buffers may differ: T and P read 0 to 23, H reads 25 to 32. -/
theorem coeffsOfBuffer_eq_of_agree (cfg : Config) : coeffsOfBuffer cfg buf = coeffsOfBuffer cfg buf' := by
  simp (disch := decide) only [coeffsOfBuffer, bufByte_eq_of_agree hagree, u16le_eq_of_agree hagree,
    s16le_eq_of_agree hagree]

end

/-- Settles O22: the outcome of a DECODE of 42 bytes is a function of the coefficients extracted, and these agree. -/
theorem unusedCalibrationBytesDoNotMatter : Obligations.UnusedCalibrationBytesDoNotMatter := by
  intro buf buf' s hlen hlen' hagree
  rw [exec_decode_of_length s hlen, exec_decode_of_length s hlen', coeffsOfBuffer_eq_of_agree hagree s.config]

end Sys2Proof.Machine
end

section
/-! How a step treats a command record that is not a command (spec R73, R76), and the lengths at which the decoder takes an
operation's operands (R75). -/

namespace Sys2Proof.Machine

/-- R73: a reserved record is taken and answered, and no other part of the state is written. -/
theorem step_of_reserved {s : State} {r : Record} {inputs : List HostInput} (hp : s.pending = .command r :: inputs)
    (hd : decodeRecord r = .reserved) :
    step s = .next { s with pending := inputs, responses := s.responses ++ [[0x04]] } := by
  rw [step, State.takeInput_of_cons s _ _ hp]
  simp only [hd]
  rfl

/-- R76: a record that is no command is refused. -/
theorem step_of_notACommand {s : State} {r : Record} {inputs : List HostInput} {why : Malformed}
    (hp : s.pending = .command r :: inputs) (hd : decodeRecord r = .notACommand why) :
    step s = .refused (.notACommand why) := by
  simp [step, State.takeInput_of_cons s _ _ hp, hd]

/-- R72, R73: 0 to 4 select an operation and no other byte does. -/
theorem opOf_ofNat_isNone_iff {n : Nat} (h : n < 256) : (opOf (BitVec.ofNat 8 n)).isNone ↔ 5 ≤ n := by
  rw [Option.isNone_iff_eq_none, opOf_eq_none_iff, BitVec.toNat_ofNat]
  omega

/-- R73: the five command bytes of R72 come first, and each of the 251 after them is reserved. -/
theorem countP_range_opOf_isNone : ((List.range 256).countP fun n => (opOf (BitVec.ofNat 8 n)).isNone) = 251 := by
  have hselect : ∀ n ∈ List.range 5, ¬ (opOf (BitVec.ofNat 8 n)).isNone := by
    intro n hn
    rw [List.mem_range] at hn
    rw [opOf_ofNat_isNone_iff (by omega)]
    omega
  have hreserved : ∀ n ∈ (List.range 251).map (5 + ·), (opOf (BitVec.ofNat 8 n)).isNone := by
    intro n hn
    obtain ⟨m, hm, rfl⟩ := List.mem_map.1 hn
    rw [List.mem_range] at hm
    exact (opOf_ofNat_isNone_iff (by omega)).2 (by omega)
  rw [show 256 = 5 + 251 from rfl, List.range_add, List.countP_append, List.countP_eq_zero.2 hselect,
    List.countP_eq_length.2 hreserved]
  simp

/-- Settles O3: the reserved bytes are those that select no operation, and a step answers them with RSP_ERR alone. -/
theorem reservedByteAnswersReservedOperation : Obligations.ReservedByteAnswersReservedOperation := by
  refine ⟨fun b rest hb => ?_, countP_range_opOf_isNone⟩
  have hop : opOf b = none := (opOf_eq_none_iff b).2 hb
  have hd : decodeRecord (b :: rest) = .reserved := (decodeRecord_eq_reserved_iff b rest).2 hop
  exact ⟨hop, hd, fun s inputs hp => step_of_reserved hp hd⟩

/-- R75: FMT_T has four operand bytes. -/
theorem decodeFmtT_isSome_iff (r : Record) : (decodeFmtT r).isSome ↔ r.length = 4 := by
  constructor
  · intro h
    unfold decodeFmtT at h
    split at h <;> simp_all
  · intro h
    match r, h with
    | [_, _, _, _], _ => rfl

/-- R75: FMT_P has eight operand bytes. -/
theorem decodeFmtP_isSome_iff (r : Record) : (decodeFmtP r).isSome ↔ r.length = 8 := by
  constructor
  · intro h
    unfold decodeFmtP at h
    split at h <;> simp_all
  · intro h
    match r, h with
    | [_, _, _, _, _, _, _, _], _ => rfl

/-- R75: FMT_H has six operand bytes. -/
theorem decodeFmtH_isSome_iff (r : Record) : (decodeFmtH r).isSome ↔ r.length = 6 := by
  constructor
  · intro h
    unfold decodeFmtH at h
    split at h <;> simp_all
  · intro h
    match r, h with
    | [_, _, _, _, _, _], _ => rfl

/-- R76: an operation takes the operands of its format's length, and FMT_B takes any. -/
theorem decodeOperands_isSome_iff (op : Op) (rest : Record) :
    (decodeOperands op rest).isSome ↔ ∀ n, op.fixedBytes = some n → rest.length + 1 = n := by
  cases op with
  | decode => simp [decodeOperands, Op.fixedBytes]
  | compt => simp [decodeOperands, Op.fixedBytes, decodeFmtT_isSome_iff]
  | compp => simp [decodeOperands, Op.fixedBytes, decodeFmtP_isSome_iff]
  | comph => simp [decodeOperands, Op.fixedBytes, decodeFmtH_isSome_iff]
  | unpack => simp [decodeOperands, Op.fixedBytes]

/-- R76: a record that begins with the command byte of a fixed format is a command exactly at the format's length. -/
theorem decodeRecord_isCommand_iff {op : Op} {n : Nat} (hn : op.fixedBytes = some n) (rest : Record) :
    (∃ i, decodeRecord (op.commandByte :: rest) = .command i) ↔ bitLength (op.commandByte :: rest) = 8 * n := by
  have hlen := decodeOperands_isSome_iff op rest
  rw [Option.isSome_iff_exists] at hlen
  simpa [decodeRecord_eq_command_iff, hn, bitLength] using hlen

/-- R76: at any other length it is refused by name. -/
theorem decodeRecord_eq_wrongLength {op : Op} {n : Nat} (hn : op.fixedBytes = some n) {rest : Record}
    (hlen : bitLength (op.commandByte :: rest) ≠ 8 * n) :
    decodeRecord (op.commandByte :: rest) = .notACommand (.wrongLength op (rest.length + 1)) := by
  have hnone : decodeOperands op rest = none := by
    have h := mt (decodeOperands_isSome_iff op rest).1 (by simpa [hn, bitLength] using hlen)
    simpa using h
  simp [decodeRecord, hnone]

/-- Settles O5: each length rule is the operands' rule for the operation the command byte selects. -/
theorem recordLengthRules : Obligations.RecordLengthRules := by
  refine ⟨fun rest => ⟨?_, ?_, ?_⟩, fun buf => ⟨rfl, rfl, ?_⟩, ?_, ?_⟩
  · exact decodeRecord_isCommand_iff (op := .compt) rfl rest
  · exact decodeRecord_isCommand_iff (op := .compp) rfl rest
  · exact decodeRecord_isCommand_iff (op := .comph) rfl rest
  · simp [bitLength]; omega
  · rintro b rest s inputs (⟨rfl, hlen⟩ | ⟨rfl, hlen⟩ | ⟨rfl, hlen⟩) hp
    · exact ⟨_, step_of_notACommand hp (decodeRecord_eq_wrongLength (op := .compt) rfl hlen)⟩
    · exact ⟨_, step_of_notACommand hp (decodeRecord_eq_wrongLength (op := .compp) rfl hlen)⟩
    · exact ⟨_, step_of_notACommand hp (decodeRecord_eq_wrongLength (op := .comph) rfl hlen)⟩
  · intro b rest hb
    exact (decodeRecord_eq_reserved_iff b rest).2 ((opOf_eq_none_iff b).2 hb)

end Sys2Proof.Machine
end

section
/-! Fields of a record at the bit positions of spec R75 and R81-R85: the first byte, and a byte, a 16-bit or a 32-bit field
with any bytes before and after it. -/

namespace Sys2Proof

open Sys2Proof.Claims

/-- Bits 7:0 are the first byte: the command byte (R71) or STATUS (R80). -/
theorem fieldOf_first (b : Byte) (rest : Record) : fieldOf (b :: rest) 7 0 = b.toNat := by
  simpa [recordNumber] using fieldOf_middle [] [b] rest 7 0 rfl rfl

/-- A 32-bit field stands at the 32 bits after the bytes before it. -/
theorem fieldOf_bytes32 (a b : Record) (v : Word32) {hi lo : Nat} (hlo : lo = 8 * a.length) (hhi : hi = lo + 31) :
    fieldOf (a ++ bytes32 v ++ b) hi lo = v.toNat := by
  rw [fieldOf_middle a (bytes32 v) b hi lo hlo (by simp [hhi]), recordNumber_bytes32]

/-- A 16-bit field stands at the 16 bits after the bytes before it. -/
theorem fieldOf_bytes16 (a b : Record) (v : Word16) {hi lo : Nat} (hlo : lo = 8 * a.length) (hhi : hi = lo + 15) :
    fieldOf (a ++ bytes16 v ++ b) hi lo = v.toNat := by
  rw [fieldOf_middle a (bytes16 v) b hi lo hlo (by simp [hhi]), recordNumber_bytes16]

/-- FMT_B (R75): byte i of the buffer stands one byte further in the record. -/
theorem fieldOf_bufferByte (b : Byte) (buf : List Byte) {i : Nat} (h : i < buf.length) :
    fieldOf (b :: buf) (8 * i + 15) (8 * i + 8) = byteNat buf i := by
  have hsplit : b :: buf = (b :: buf.take i) ++ [buf[i]] ++ buf.drop (i + 1) := by simp
  rw [hsplit, fieldOf_middle _ _ _ _ _ (by simp; omega) (by simp)]
  simp [recordNumber, byteNat, h]

/-- R81: field k of a record of 16-bit fields behind one byte. -/
theorem fieldOf_pattern (b : Byte) (vs : List Word16) {k : Nat} (h : k < vs.length) :
    fieldOf (b :: vs.flatMap bytes16) (16 * k + 23) (16 * k + 8) = (vs.getD k 0).toNat := by
  have hsplit : b :: vs.flatMap bytes16 =
      (b :: (vs.take k).flatMap bytes16) ++ bytes16 vs[k] ++ (vs.drop (k + 1)).flatMap bytes16 := by
    rw [List.cons_append, List.cons_append, ← List.flatMap_singleton bytes16, ← List.flatMap_append,
      ← List.flatMap_append]
    simp
  rw [hsplit, fieldOf_bytes16 _ _ _ _ rfl]
  · simp [h]
  · simp [List.length_flatMap]; omega

end Sys2Proof

namespace Sys2Proof.Machine

/-- R82, TEMP. -/
theorem fieldOf_temperatureResponse_temp (temp tFine : Word32) :
    fieldOf (temperatureResponse temp tFine) 39 8 = temp.toNat :=
  fieldOf_bytes32 [statusCode .ok] (bytes32 tFine) temp rfl rfl

/-- R82, T_FINE. -/
theorem fieldOf_temperatureResponse_tFine (temp tFine : Word32) :
    fieldOf (temperatureResponse temp tFine) 71 40 = tFine.toNat :=
  fieldOf_bytes32 (statusCode .ok :: bytes32 temp) [] tFine rfl rfl

/-- R83, PRES. -/
theorem fieldOf_pressureResponse (pres : Word32) : fieldOf (pressureResponse pres) 39 8 = pres.toNat :=
  fieldOf_bytes32 [statusCode .ok] [] pres rfl rfl

section
variable (rawP rawT : Word32) (rawH : Word16)

/-- R85, RAW_P. -/
theorem fieldOf_unpackResponse_rawP : fieldOf (unpackResponse rawP rawT rawH) 39 8 = rawP.toNat :=
  fieldOf_bytes32 [statusCode .ok] (bytes32 rawT ++ bytes16 rawH) rawP rfl rfl

/-- R85, RAW_T. -/
theorem fieldOf_unpackResponse_rawT : fieldOf (unpackResponse rawP rawT rawH) 71 40 = rawT.toNat :=
  fieldOf_bytes32 (statusCode .ok :: bytes32 rawP) (bytes16 rawH) rawT rfl rfl

/-- R85, RAW_H. -/
theorem fieldOf_unpackResponse_rawH : fieldOf (unpackResponse rawP rawT rawH) 87 72 = rawH.toNat :=
  fieldOf_bytes16 (statusCode .ok :: (bytes32 rawP ++ bytes32 rawT)) [] rawH rfl rfl

end

/-- Settles O6: every field stands behind the bytes of the fields before it. -/
theorem commandFieldsAtTheirBits : Obligations.CommandFieldsAtTheirBits := by
  refine ⟨fun rawT => ⟨rfl, fieldOf_first _ _, ?_⟩, fun tFine rawP => ⟨rfl, fieldOf_first _ _, ?_, ?_⟩,
    fun tFine rawH => ⟨rfl, fieldOf_first _ _, ?_, ?_⟩, fun buf => ⟨?_, fieldOf_first _ _, ?_, fieldOf_first _ _, ?_⟩⟩
  · exact fieldOf_bytes32 [0x01] [] rawT rfl rfl
  · exact fieldOf_bytes32 [0x02] (bytes32 rawP) tFine rfl rfl
  · exact fieldOf_bytes32 (0x02 :: bytes32 tFine) [] rawP rfl rfl
  · exact fieldOf_bytes32 [0x03] (bytes16 rawH) tFine rfl rfl
  · exact fieldOf_bytes16 (0x03 :: bytes32 tFine) [] rawH rfl rfl
  · simp [bitLength, encode, Instr.operandBytes]; omega
  · simp [bitLength, encode, Instr.operandBytes]; omega
  · exact fun i hi => ⟨fieldOf_bufferByte _ buf hi, fieldOf_bufferByte _ buf hi⟩

/-- Settles O19: the answer is the pattern list of the coefficients the store has just been given. -/
theorem decodeResponseCarriesTheStore : Obligations.DecodeResponseCarriesTheStore := by
  intro buf s hlen
  refine ⟨_, _, exec_decode_of_length s hlen, rfl, rfl, fieldOf_first _ _, fun k hk => ?_⟩
  exact fieldOf_pattern _ (coeffPatterns (coeffsOfBuffer s.config buf)) hk

end Sys2Proof.Machine
end

section
/-! UNPACK on a burst of eight bytes (spec R55, R85, R180): the readings as numbers. -/

namespace Sys2Proof.Machine

open Sys2Proof.Claims

/-- R180: with eight bytes UNPACK answers the readings, in both states of CALIB_VALID. -/
theorem exec_unpack_of_length {buf : List Byte} (s : State) (hlen : buf.length = 8) :
    exec (.unpack buf) s =
      .next (s.deliver (unpackResponse (burstPressure buf) (burstTemperature buf) (burstHumidity buf))) := by
  obtain ⟨-, hnext⟩ | ⟨hne, -⟩ := execUnpack_cases buf s
  · exact hnext
  · exact absurd hlen hne

/-- R180, RAW_P. -/
theorem burstPressure_toNat (buf : List Byte) : (burstPressure buf).toNat = readingOf buf 0 := reading20_toNat _ _ _

/-- R180, RAW_T. -/
theorem burstTemperature_toNat (buf : List Byte) : (burstTemperature buf).toNat = readingOf buf 3 := reading20_toNat _ _ _

/-- R180, RAW_H. -/
theorem burstHumidity_toNat (buf : List Byte) : (burstHumidity buf).toNat = byteNat buf 6 * 256 + byteNat buf 7 :=
  reading16_toNat _ _

/-- R55: a reading has 20 bits. -/
theorem readingOf_le (buf : List Byte) (i : Nat) : readingOf buf i ≤ 2 ^ 20 - 1 := by
  have hbyte : ∀ k, byteNat buf k < 256 := fun k => (buf.getD k 0).isLt
  have := hbyte i
  have := hbyte (i + 1)
  have := hbyte (i + 2)
  rw [readingOf]
  omega

/-- Settles O41: RSP_U holds the three readings, each the number of its bytes. -/
theorem unpackReadsTheBurst : Obligations.UnpackReadsTheBurst := by
  intro buf s hlen
  refine ⟨_, exec_unpack_of_length s hlen, rfl, fieldOf_first _ _, ?_⟩
  rw [fieldOf_unpackResponse_rawP, fieldOf_unpackResponse_rawT, fieldOf_unpackResponse_rawH, burstPressure_toNat,
    burstTemperature_toNat, burstHumidity_toNat]
  exact ⟨rfl, rfl, rfl, readingOf_le buf 0, readingOf_le buf 3⟩

end Sys2Proof.Machine
end

section
/-! COMPT on a Ready block (spec R82, R136-R139): its chain of words is the chain of integers. -/

namespace Sys2Proof.Machine

open Sys2Proof.Claims

/-- Read without a sign, a word is its signed value modulo 2^w (R11). -/
theorem toNat_eq_toInt_emod {w : Nat} (v : BitVec w) : (v.toNat : Int) = v.toInt % 2 ^ w := by
  have hlt : (v.toNat : Int) < 2 ^ w := by exact_mod_cast v.isLt
  have hmod := Int.bmod_emod (x := v.toNat) (m := 2 ^ w)
  push_cast at hmod
  rw [BitVec.toInt_eq_toNat_bmod, hmod, Int.emod_eq_of_lt (by positivity) hlt]

/-- R136: on a Ready block COMPT answers with its chain's values. -/
theorem exec_compt_of_ready {s : State} (rawT : Word32) (hvalid : s.calibValid = true) :
    exec (.compt rawT) s =
      .next (s.deliver (temperatureResponse (tempOutput (tempFine s.coeffs rawT)) (tempFine s.coeffs rawT))) := by
  obtain ⟨-, hnext⟩ | ⟨hno, -⟩ := execCompt_cases rawT s
  · exact hnext
  · simp [hvalid] at hno

/-- R137. -/
theorem tempTerm1_toInt (c : Coeffs) (rawT : Word32) :
    (tempTerm1 c rawT).toInt = intTempTerm1 c.t1.toNat c.t2.toInt rawT.toInt := by
  simp (disch := decide) only [tempTerm1, intTempTerm1, toInt_sar, toInt_mul_wrap, toInt_sub_wrap, toInt_shl, toInt_zext32,
    toInt_sext32, pow_one]

/-- R138, `d`. -/
theorem tempDelta_toInt (c : Coeffs) (rawT : Word32) :
    (tempDelta c rawT).toInt = wrap 32 (floorShift rawT.toInt 4 - c.t1.toNat) := by
  simp (disch := decide) only [tempDelta, toInt_sar, toInt_sub_wrap, toInt_zext32]

/-- R138. -/
theorem tempTerm2_toInt (c : Coeffs) (rawT : Word32) :
    (tempTerm2 c rawT).toInt = intTempTerm2 c.t1.toNat c.t3.toInt rawT.toInt := by
  simp (disch := decide) only [tempTerm2, intTempTerm2, toInt_sar, toInt_mul_wrap, tempDelta_toInt, toInt_sext32]

/-- R139, the fine-value. -/
theorem tempFine_toInt (c : Coeffs) (rawT : Word32) : (tempFine c rawT).toInt = fineOf c rawT := by
  simp only [tempFine, fineOf, intTempFine, toInt_add_wrap, tempTerm1_toInt, tempTerm2_toInt]

/-- R139, TEMP. -/
theorem tempOutput_toInt (tFine : Word32) : (tempOutput tFine).toInt = intTempOutput tFine.toInt := by
  simp only [tempOutput, intTempOutput, toInt_sar, toInt_add_wrap, toInt_mul_wrap, BitVec.reduceToInt]

/-- Settles O28: TEMP and T_FINE stand in their fields, and each is the integer chain's value. -/
theorem comptAnswersTheIntegerChain : Obligations.ComptAnswersTheIntegerChain := by
  intro rawT s hvalid
  refine ⟨_, exec_compt_of_ready rawT hvalid, rfl, fieldOf_first _ _, ?_, ?_⟩
  · rw [fieldOf_temperatureResponse_temp, toNat_eq_toInt_emod, tempOutput_toInt, tempFine_toInt]
  · rw [fieldOf_temperatureResponse_tFine, toNat_eq_toInt_emod, tempFine_toInt]

end Sys2Proof.Machine
end

section
/-! COMPP on a Ready block (spec R83, R141-R148): its chain of words is the chain of integers. -/

namespace Sys2Proof.Machine

open Sys2Proof.Claims

/-- R141: on a Ready block COMPP answers with its chain's value. -/
theorem exec_compp_of_ready {s : State} (tFine rawP : Word32) (hvalid : s.calibValid = true) :
    exec (.compp tFine rawP) s = .next (s.deliver (pressureResponse (presOutput s.coeffs tFine rawP))) := by
  obtain ⟨-, hnext⟩ | ⟨hno, -⟩ := execCompp_cases tFine rawP s
  · exact hnext
  · simp [hvalid] at hno

/-- R142. -/
theorem presOffset_toInt (tFine : Word32) : (presOffset tFine).toInt = intPresOffset tFine.toInt := by
  simp (disch := decide) only [presOffset, intPresOffset, toInt_sub_wrap, toInt_sext64, BitVec.reduceToInt]

/-- R143. -/
theorem presTerm2_toInt (c : Coeffs) (v1 : Word64) :
    (presTerm2 c v1).toInt = intPresTerm2 c.p4.toInt c.p5.toInt c.p6.toInt v1.toInt := by
  simp (disch := decide) only [presTerm2, intPresTerm2, toInt_add_wrap, toInt_mul_wrap, toInt_shl, toInt_sext64]

/-- R144. -/
theorem presTerm1_toInt (c : Coeffs) (v1 : Word64) :
    (presTerm1 c v1).toInt = intPresTerm1 c.p2.toInt c.p3.toInt v1.toInt := by
  simp (disch := decide) only [presTerm1, intPresTerm1, toInt_add_wrap, toInt_mul_wrap, toInt_shl, toInt_sar, toInt_sext64]

/-- R145. -/
theorem presNorm_toInt (c : Coeffs) (v1 : Word64) : (presNorm c v1).toInt = intPresNorm c.p1.toNat v1.toInt := by
  have hone : (shl (1 : Word64) 47).toInt = 2 ^ 47 := by decide
  simp (disch := decide) only [presNorm, intPresNorm, toInt_add_wrap, toInt_mul_wrap, toInt_sar, hone, toInt_zext64]

/-- R147: the truncating division, then the wrap. -/
theorem presQuotient_toInt (v1 v2 : Word64) (rawP : Word32) :
    (presQuotient v1 v2 rawP).toInt = intPresQuotient v1.toInt v2.toInt rawP.toInt := by
  simp (disch := decide) only [presQuotient, intPresQuotient, toInt_divT, toInt_sub_wrap, toInt_mul_wrap, toInt_shl,
    toInt_sext64, BitVec.reduceToInt]

/-- R148. -/
theorem presFinal_toInt (c : Coeffs) (p : Word64) :
    (presFinal c p).toInt = intPresFinal c.p7.toInt c.p8.toInt c.p9.toInt p.toInt := by
  simp (disch := decide) only [presFinal, intPresFinal, toInt_sar, toInt_add_wrap, toInt_mul_wrap, toInt_shl, toInt_sext64]

/-- The low 32 bits of an i64, read without a sign (R148). -/
theorem toNat_setWidth32_eq_toInt_emod (v : Word64) : ((v.setWidth 32).toNat : Int) = v.toInt % 2 ^ 32 := by
  rw [BitVec.toNat_setWidth, Int.natCast_emod, toNat_eq_toInt_emod, Nat.cast_pow, Nat.cast_ofNat,
    Int.emod_emod_of_dvd _ (by norm_num)]

/-- R146 and R148: 0 for a normalization term of 0, else the low 32 bits. -/
theorem presResult_toNat (c : Coeffs) (norm v2 : Word64) (rawP : Word32) :
    ((presResult c norm v2 rawP).toNat : Int) =
      if norm.toInt = 0 then 0
      else intPresFinal c.p7.toInt c.p8.toInt c.p9.toInt (intPresQuotient norm.toInt v2.toInt rawP.toInt) % 2 ^ 32 := by
  have hzero : norm.toInt = 0 ↔ norm = 0 := by rw [← BitVec.toInt_inj]; simp
  simp only [presResult, hzero]
  split
  · rfl
  · rw [toNat_setWidth32_eq_toInt_emod, presFinal_toInt, presQuotient_toInt]

/-- R142-R148, one after the other. -/
theorem presOutput_toNat (c : Coeffs) (tFine rawP : Word32) :
    ((presOutput c tFine rawP).toNat : Int) = presOf c tFine rawP := by
  simp only [presOutput, presOf, intPresOutput, presResult_toNat, presNorm_toInt, presTerm1_toInt, presTerm2_toInt,
    presOffset_toInt]

/-- Settles O32: PRES stands in its field, and it is the integer chain's value. -/
theorem comppAnswersTheIntegerChain : Obligations.ComppAnswersTheIntegerChain := by
  intro tFine rawP s hvalid
  refine ⟨_, exec_compp_of_ready tFine rawP hvalid, rfl, fieldOf_first _ _, ?_⟩
  rw [fieldOf_pressureResponse, presOutput_toNat]

end Sys2Proof.Machine
end

section
/-! The coefficients DECODE loads, as numbers (spec R104-R122), what they depend on (R103), and the answer to a buffer of
another length (R101, R102). -/

namespace Sys2Proof.Machine

open Sys2Proof.Claims

/-- R104: `int16` of a word's pattern is the word's signed value. -/
theorem toInt_eq_int16Of (v : Word16) : v.toInt = int16Of v.toNat := by
  rw [BitVec.toInt_eq_msb_cond, BitVec.msb_eq_decide]
  simp [int16Of]

/-- R11: `int8` of a byte is the byte's signed value. -/
theorem toInt_eq_int8Of (b : Byte) : b.toInt = int8Of b.toNat := by
  rw [BitVec.toInt_eq_msb_cond, BitVec.msb_eq_decide]
  simp [int8Of]

/-- R104, `u16le`. -/
theorem u16le_toNat_eq_pairNat (buf : List Byte) (o : Nat) : (u16le buf o).toNat = pairNat buf o := u16le_toNat buf o

/-- R104, `s16le`. -/
theorem s16le_toInt (buf : List Byte) (o : Nat) : (s16le buf o).toInt = int16Of (pairNat buf o) := by
  rw [toInt_eq_int16Of, s16le, u16le_toNat_eq_pairNat]

/-- R103: of the parameters the extraction reads H45_MSB_SIGNED alone, to extend the full bytes of H4 and H5 (R104). -/
theorem coeffsOfBuffer_eq_of_h45MsbSigned_eq {cfg cfg' : Config} (hcfg : cfg.h45MsbSigned = cfg'.h45MsbSigned)
    (buf : List Byte) : coeffsOfBuffer cfg buf = coeffsOfBuffer cfg' buf := by
  have hextend : ∀ b, extendMsb cfg b = extendMsb cfg' b := fun b => by rw [extendMsb, hcfg, extendMsb]
  simp only [coeffsOfBuffer, packNibble, hextend]

/-- R101, R102: at any other length DECODE raises InvalidCalibrationLength. -/
theorem exec_decode_of_length_ne {buf : List Byte} (s : State) (hlen : buf.length ≠ 42) :
    exec (.decode buf) s = .next (s.raiseError .rspDecode .invalidCalibrationLength) := by
  obtain ⟨heq, -⟩ | ⟨-, herr⟩ := execDecode_cases buf s
  · exact absurd heq hlen
  · exact herr

/-- Settles O15: the store holds the pairs that R105-R107 name. -/
theorem decodeLoadsTemperatureCoefficients : Obligations.DecodeLoadsTemperatureCoefficients := by
  intro buf s hlen
  exact ⟨_, exec_decode_of_length s hlen, rfl, u16le_toNat_eq_pairNat buf 0, s16le_toInt buf 2, s16le_toInt buf 4⟩

/-- Settles O16: the store holds the pairs that R108-R116 name. -/
theorem decodeLoadsPressureCoefficients : Obligations.DecodeLoadsPressureCoefficients := by
  intro buf s hlen
  exact ⟨_, exec_decode_of_length s hlen, rfl, u16le_toNat_eq_pairNat buf 6, s16le_toInt buf 8, s16le_toInt buf 10,
    s16le_toInt buf 12, s16le_toInt buf 14, s16le_toInt buf 16, s16le_toInt buf 18, s16le_toInt buf 20,
    s16le_toInt buf 22⟩

/-- Settles O17: the store holds the bytes and the pair that R117-R119 and R122 name; H1 and H3 are bytes as they stand. -/
theorem decodeLoadsWholeHumidityCoefficients : Obligations.DecodeLoadsWholeHumidityCoefficients := by
  intro buf s hlen
  exact ⟨_, exec_decode_of_length s hlen, rfl, rfl, s16le_toInt buf 26, rfl, toInt_eq_int8Of (bufByte buf 32)⟩

/-- Settles O20: both states load and answer with the same extracted coefficients. -/
theorem decodeDependsOnTheBufferAlone : Obligations.DecodeDependsOnTheBufferAlone := by
  intro buf s s' hlen hcfg
  have hsame := coeffsOfBuffer_eq_of_h45MsbSigned_eq hcfg buf
  have hexec' := exec_decode_of_length s' hlen
  rw [← hsame] at hexec'
  exact ⟨_, _, decodeResponse (coeffsOfBuffer s.config buf), exec_decode_of_length s hlen, hexec', rfl, rfl, rfl, rfl, rfl,
    rfl⟩

/-- Settles O21: RSP_DECODE's error record is the status and 36 zero bytes (R80, R81), and raising it only hands it out. -/
theorem decodeWrongLengthWritesNothing : Obligations.DecodeWrongLengthWritesNothing := by
  intro buf s hlen
  exact exec_decode_of_length_ne s hlen

end Sys2Proof.Machine
end

section
/-! The two correction terms of COMPT (spec R137, R138): the ranges an arithmetic right shift leaves, and where the square
of `d` wraps. -/

namespace Sys2Proof.Machine

/-- R132: of a word of `k + m + 1` bits, a shift by `k` leaves a signed number of `m + 1` bits. -/
theorem sar_toInt_bounds {w k m : Nat} (hw : w = k + m + 1) (v : BitVec w) :
    -2 ^ m ≤ (sar v k).toInt ∧ (sar v k).toInt ≤ 2 ^ m - 1 := by
  subst hw
  have hlo := BitVec.le_toInt v
  have hhi := BitVec.toInt_lt (x := v)
  rw [Nat.add_sub_cancel, pow_add, mul_comm] at hlo hhi
  rw [toInt_sar, floorShift, Int.fdiv_eq_ediv_of_nonneg _ (by positivity), Int.le_sub_one_iff,
    Int.le_ediv_iff_mul_le (by positivity), Int.ediv_lt_iff_lt_mul (by positivity), neg_mul]
  exact ⟨hlo, hhi⟩

/-- R12: reducing to 32 bits leaves exactly the numbers of i32 as they are. -/
theorem wrap_32_eq_self_iff (x : Int) : wrap 32 x = x ↔ -2 ^ 31 ≤ x ∧ x < 2 ^ 31 := by
  constructor
  · intro h
    have hlo := Int.le_bmod (x := x) (m := 2 ^ 32) (by decide)
    have hhi := Int.bmod_lt (x := x) (m := 2 ^ 32) (by decide)
    rw [wrap] at h
    omega
  · rintro ⟨hlo, hhi⟩
    exact wrap_eq_self (by omega) (by omega)

/-- R138: 46340 is the largest number whose square is an i32. -/
theorem wrap_32_sq_ne_iff (x : Int) : wrap 32 (x * x) ≠ x * x ↔ 46340 < |x| := by
  have hnonneg : 0 ≤ x * x := mul_self_nonneg x
  rw [Ne, wrap_32_eq_self_iff, not_iff_comm, not_lt, iff_comm]
  constructor
  · rintro ⟨-, hfits⟩
    by_contra! hlt
    have hsq := mul_self_le_mul_self (by decide) (Int.add_one_le_of_lt hlt)
    rw [abs_mul_abs_self] at hsq
    omega
  · intro hle
    have hsq := mul_self_le_mul_self (abs_nonneg x) hle
    rw [abs_mul_abs_self] at hsq
    omega

/-- R138: `d` = 46341 has the wrapped square -2147479015. -/
theorem tempDelta_sq_neg : (tempDelta Coeffs.unwritten 741456 * tempDelta Coeffs.unwritten 741456).toInt < 0 := by decide

/-- Settles O29: both terms are right shifts of an i32, by 11 and by 14, which gives their ranges. -/
theorem temperatureTermsAndTheirBounds : Obligations.TemperatureTermsAndTheirBounds := by
  refine ⟨⟨_, _, tempDelta_sq_neg⟩, fun c rawT => ?_⟩
  obtain ⟨hlo₁, hhi₁⟩ : -2 ^ 20 ≤ (tempTerm1 c rawT).toInt ∧ (tempTerm1 c rawT).toInt ≤ 2 ^ 20 - 1 :=
    sar_toInt_bounds rfl _
  obtain ⟨hlo₂, hhi₂⟩ : -2 ^ 17 ≤ (tempTerm2 c rawT).toInt ∧ (tempTerm2 c rawT).toInt ≤ 2 ^ 17 - 1 :=
    sar_toInt_bounds rfl _
  have hsquare : 46340 < |(tempDelta c rawT).toInt| ↔
      (tempDelta c rawT * tempDelta c rawT).toInt ≠ (tempDelta c rawT).toInt * (tempDelta c rawT).toInt := by
    rw [toInt_mul_wrap, wrap_32_sq_ne_iff]
  exact ⟨tempTerm1_toInt c rawT, hlo₁, hhi₁, tempDelta_toInt c rawT, hsquare, tempTerm2_toInt c rawT, hlo₂, hhi₂⟩

end Sys2Proof.Machine
end

section
/-! COMPP's two special cases (spec R146, R149): a normalization term of 0, and the division of -2^63 by -1. -/

namespace Sys2Proof.Machine

open Sys2Proof.Claims

/-- R146: the short-circuit, whatever the second term and raw_p are. -/
theorem presOf_of_norm_zero {c : Coeffs} {tFine : Word32} (rawP : Word32) (hnorm : normOf c tFine = 0) :
    presOf c tFine rawP = 0 :=
  if_pos hnorm

/-- R147, R148: PRES from the normalization term and the dividend. -/
theorem presOf_of_norm_ne_zero {c : Coeffs} {tFine : Word32} (rawP : Word32) (hnorm : normOf c tFine ≠ 0) :
    presOf c tFine rawP =
      intPresFinal c.p7.toInt c.p8.toInt c.p9.toInt (wrap 64 ((dividendOf c tFine rawP).tdiv (normOf c tFine))) % 2 ^ 32 :=
  if_neg hnorm

/-- R145: P1 is a factor of the normalization term. -/
theorem normOf_of_p1_zero {c : Coeffs} (tFine : Word32) (hp1 : c.p1 = 0) : normOf c tFine = 0 := by
  have hfactor : (c.p1.toNat : Int) = 0 := by simp [hp1]
  rw [normOf, intPresNorm, hfactor, mul_zero]
  rfl

/-- Settles O33: PRES is the integer chain's 0, and RSP_P of 0 is five zero bytes. -/
theorem zeroNormalizationTermAnswersZero : Obligations.ZeroNormalizationTermAnswersZero := by
  intro tFine rawP s hvalid
  refine ⟨fun hnorm => ?_, normOf_of_p1_zero tFine⟩
  have hpres : presOutput s.coeffs tFine rawP = 0 := by
    have hnat := presOutput_toNat s.coeffs tFine rawP
    rw [presOf_of_norm_zero rawP hnorm, Int.natCast_eq_zero] at hnat
    exact BitVec.eq_of_toNat_eq hnat
  rw [exec_compp_of_ready tFine rawP hvalid, hpres]
  rfl

/-- Settles O34: the integer chain's quotient is -2^63 there, because 2^63 wraps. -/
theorem pressureDivisionOverflowWraps : Obligations.PressureDivisionOverflowWraps := by
  intro tFine rawP s hvalid hnorm hdividend
  obtain ⟨r, hexec, hlength, hstatus, hpres⟩ := comppAnswersTheIntegerChain tFine rawP s hvalid
  have hquotient : wrap 64 ((-2 ^ 63 : Int).tdiv (-1)) = -2 ^ 63 := by decide
  rw [presOf_of_norm_ne_zero rawP (by rw [hnorm]; decide), hnorm, hdividend, hquotient] at hpres
  exact ⟨r, hexec, hlength, hstatus, hpres⟩

end Sys2Proof.Machine
end

section
/-! SCALE of the humidity chain in its two forms (spec R152), and the clamps and the division by 4096 (R155), as numbers. -/

namespace Sys2Proof.Machine

/-- R133: dividing by a positive word never overflows. -/
theorem toInt_divT_of_pos (a : Word32) {b : Word32} (hb : 0 < b.toInt) : (divT a b).toInt = a.toInt.tdiv b.toInt := by
  have hne : b ≠ -1#32 := by
    rintro rfl
    exact absurd hb (by decide)
  exact BitVec.toInt_sdiv_of_ne_or_ne a b (.inr hne)

/-- SCALE's divisor: 2^k is an i32 below exponent 31. -/
theorem toInt_shl_one {k : Nat} (hk : k < 31) : (shl (1 : Word32) k).toInt = 2 ^ k := by
  have hlt : (2 : Int) ^ k < 2 ^ 31 := pow_lt_pow_right₀ (by decide) hk
  have hpos : (0 : Int) < 2 ^ k := by positivity
  rw [toInt_shl, show (1 : Word32).toInt = 1 from rfl, one_mul]
  exact wrap_eq_self (by omega) (by omega)

/-- R152, either form. -/
theorem scale_toInt (form : HumForm) (v : Word32) {k : Nat} (hk : k < 31) :
    (scale form v k).toInt = intScale form v.toInt k := by
  cases form with
  | div =>
    have hdivisor := toInt_shl_one hk
    rw [scale, toInt_divT_of_pos v (by rw [hdivisor]; positivity), hdivisor, intScale]
  | shift => exact toInt_sar v k

/-- Rounding toward zero and rounding down part exactly at the negative non-multiples of a positive divisor. -/
theorem tdiv_ne_fdiv_iff {d : Int} (hd : 0 < d) (x : Int) : x.tdiv d ≠ x.fdiv d ↔ x < 0 ∧ ¬ d ∣ x := by
  rw [Int.tdiv_eq_fdiv, Int.sign_eq_one_of_pos hd]
  by_cases hdvd : d ∣ x
  · simp [hdvd]
  · by_cases hx : 0 ≤ x
    · simp [hdvd, hx, hd.le]
    · simp [hdvd, hx, hd.le, Int.not_le.1 hx]

/-- R152: the forms differ where their roundings do. -/
theorem scale_div_ne_scale_shift_iff (v : Word32) {k : Nat} (hk : k < 31) :
    scale .div v k ≠ scale .shift v k ↔ v.toInt < 0 ∧ ¬ (2 ^ k : Int) ∣ v.toInt := by
  rw [← BitVec.toInt_inj.ne, scale_toInt .div v hk, scale_toInt .shift v hk]
  exact tdiv_ne_fdiv_iff (by positivity) v.toInt

/-- The coefficients of vector H7 (95_test_vectors.md), which tell the two forms apart. -/
def formSensitiveCoeffs : Coeffs :=
  { Coeffs.unwritten with h1 := 95, h2 := 6080, h3 := 61, h4 := 677, h5 := 1409, h6 := BitVec.ofInt 8 (-31) }

/-- Vector H7: HUM is 36117 with DIV. -/
theorem humOutput_formSensitive_div : humOutput (humChain .div formSensitiveCoeffs 129526 37245) = 36117 := by decide

/-- Vector H7: HUM is 36142 with SHIFT. -/
theorem humOutput_formSensitive_shift : humOutput (humChain .shift formSensitiveCoeffs 129526 37245) = 36142 := by decide

/-- Settles O37: the forms are the two integer divisions, and vector H7 shows the difference in HUM. -/
theorem scaleFormsDifferOnlyBelowZero : Obligations.ScaleFormsDifferOnlyBelowZero := by
  refine ⟨fun v k hk => ?_, ⟨formSensitiveCoeffs, 129526, 37245, ?_⟩, rfl⟩
  · exact ⟨scale_toInt .div v hk, scale_toInt .shift v hk, scale_div_ne_scale_shift_iff v hk⟩
  · rw [humOutput_formSensitive_div, humOutput_formSensitive_shift]
    decide

/-- R155: the clamped value divided. -/
theorem humOutput_toInt (v5 : Word32) : (humOutput v5).toInt = intHumOutput v5.toInt := by
  simp (disch := decide) only [humOutput, intHumOutput, minS_toInt, toInt_divT_of_pos, clampS_toInt, BitVec.reduceToInt]

/-- R155: on a clamped value, which is not negative, truncating division by 4096 is the shift by 12. -/
theorem clampInt_tdiv_4096 (v5 : Int) :
    (clampInt v5 0 419430400).tdiv 4096 = floorShift (clampInt v5 0 419430400) 12 := by
  obtain ⟨hnonneg, -⟩ := clampInt_bounds v5 0 419430400 (by decide)
  rw [floorShift, Int.fdiv_eq_tdiv_of_nonneg hnonneg (by decide)]
  rfl

/-- Settles O38: the integer form of R155, with the shift in the division's place. -/
theorem humidityClampsAndDivision : Obligations.HumidityClampsAndDivision := by
  intro v5
  refine ⟨humOutput_toInt v5, ?_⟩
  rw [humOutput_toInt, intHumOutput, clampInt_tdiv_4096]

end Sys2Proof.Machine
end

section
/-! COMPH on a Ready block (spec R84, R151-R155): its chain of words is the chain of integers. -/

namespace Sys2Proof.Machine

open Sys2Proof.Claims

/-- R151: on a Ready block COMPH answers with its chain's value. -/
theorem exec_comph_of_ready {s : State} (tFine : Word32) (rawH : Word16) (hvalid : s.calibValid = true) :
    exec (.comph tFine rawH) s =
      .next (s.deliver (humidityResponse (humOutput (humChain s.config.humForm s.coeffs tFine rawH)))) := by
  obtain ⟨-, hnext⟩ | ⟨hno, -⟩ := execComph_cases tFine rawH s
  · exact hnext
  · simp [hvalid] at hno

/-- R84, HUM. -/
theorem fieldOf_humidityResponse (hum : Word32) : fieldOf (humidityResponse hum) 39 8 = hum.toNat :=
  fieldOf_bytes32 [statusCode .ok] [] hum rfl rfl

/-- R153. -/
theorem humChain_toInt (form : HumForm) (c : Coeffs) (tFine : Word32) (rawH : Word16) :
    (humChain form c tFine rawH).toInt =
      intHumChain form c.h1.toNat c.h2.toInt c.h3.toNat c.h4.toInt c.h5.toInt c.h6.toInt tFine.toInt rawH.toNat := by
  simp (disch := decide) only [humChain, humLinearise, humReading, humGain, humOffset, intHumChain, scale_toInt,
    toInt_add_wrap, toInt_sub_wrap, toInt_mul_wrap, toInt_sext32, toInt_zext32, BitVec.reduceToInt]

/-- R156: the clamps keep the output in this range. -/
theorem intHumOutput_bounds (v5 : Int) : 0 ≤ intHumOutput v5 ∧ intHumOutput v5 ≤ 102400 := by
  obtain ⟨hnonneg, -⟩ := clampInt_bounds v5 0 419430400 (by decide)
  exact ⟨le_min (Int.tdiv_nonneg hnonneg (by decide)) (by decide), min_le_right _ _⟩

/-- R155, HUM as the unsigned number it is answered as. -/
theorem humOutput_toNat (v5 : Word32) : ((humOutput v5).toNat : Int) = intHumOutput v5.toInt := by
  obtain ⟨hlo, hhi⟩ := intHumOutput_bounds v5.toInt
  rw [toNat_eq_toInt_emod, humOutput_toInt, Int.emod_eq_of_lt hlo (by omega)]

/-- Settles O36: HUM stands in its field, and it is the integer chain's value. -/
theorem comphAnswersTheIntegerChain : Obligations.ComphAnswersTheIntegerChain := by
  intro tFine rawH s hvalid
  refine ⟨_, exec_comph_of_ready tFine rawH hvalid, rfl, fieldOf_first _ _, ?_⟩
  rw [fieldOf_humidityResponse, humOutput_toNat, humChain_toInt, humOf]

end Sys2Proof.Machine
end

section
/-! UNPACK on a burst of another length (spec R181), and the bits of a burst it does not read (R182). -/

namespace Sys2Proof.Machine

open Sys2Proof.Claims

/-- R181: at any other length UNPACK raises InvalidBurstLength. -/
theorem exec_unpack_of_length_ne {buf : List Byte} (s : State) (hlen : buf.length ≠ 8) :
    exec (.unpack buf) s = .next (s.raiseError .rspU .invalidBurstLength) := by
  obtain ⟨heq, -⟩ | ⟨-, herr⟩ := execUnpack_cases buf s
  · exact absurd heq hlen
  · exact herr

/-- Settles O42: RSP_U of an error is its STATUS and ten zero bytes. -/
theorem unpackWrongLengthWritesNothing : Obligations.UnpackWrongLengthWritesNothing :=
  fun _ s hlen => exec_unpack_of_length_ne s hlen

/-- R182: with eight bytes UNPACK's outcome depends only on the three readings as numbers. -/
theorem exec_unpack_eq_of_readings_eq {buf buf' : List Byte} (s : State) (hlen : buf.length = 8) (hlen' : buf'.length = 8)
    (hpressure : readingOf buf 0 = readingOf buf' 0) (htemperature : readingOf buf 3 = readingOf buf' 3)
    (hhumidity : byteNat buf 6 * 256 + byteNat buf 7 = byteNat buf' 6 * 256 + byteNat buf' 7) :
    exec (.unpack buf) s = exec (.unpack buf') s := by
  have hrawP : burstPressure buf = burstPressure buf' :=
    BitVec.eq_of_toNat_eq (by rw [burstPressure_toNat, burstPressure_toNat, hpressure])
  have hrawT : burstTemperature buf = burstTemperature buf' :=
    BitVec.eq_of_toNat_eq (by rw [burstTemperature_toNat, burstTemperature_toNat, htemperature])
  have hrawH : burstHumidity buf = burstHumidity buf' :=
    BitVec.eq_of_toNat_eq (by rw [burstHumidity_toNat, burstHumidity_toNat, hhumidity])
  rw [exec_unpack_of_length s hlen, exec_unpack_of_length s hlen', hrawP, hrawT, hrawH]

/-- A reading takes the upper nibble alone of its third byte (R180). -/
theorem readingOf_eq_of_bytes_eq {buf buf' : List Byte} {i : Nat} (hhi : byteNat buf i = byteNat buf' i)
    (hmid : byteNat buf (i + 1) = byteNat buf' (i + 1)) (hlo : byteNat buf (i + 2) / 16 = byteNat buf' (i + 2) / 16) :
    readingOf buf i = readingOf buf' i := by
  rw [readingOf, hhi, hmid, hlo, readingOf]

/-- Settles O43: the three readings are the same numbers, as they take the upper nibbles of bytes 2 and 5 alone. -/
theorem discardedNibblesDoNotMatter : Obligations.DiscardedNibblesDoNotMatter := by
  intro buf buf' s hlen hlen' hbytes hnibble2 hnibble5
  have hbyte : ∀ i, i < 8 ∧ i ≠ 2 ∧ i ≠ 5 → byteNat buf i = byteNat buf' i :=
    fun i ⟨hlt, hne2, hne5⟩ => hbytes i hlt hne2 hne5
  apply exec_unpack_eq_of_readings_eq s hlen hlen'
  · exact readingOf_eq_of_bytes_eq (hbyte 0 (by decide)) (hbyte 1 (by decide)) hnibble2
  · exact readingOf_eq_of_bytes_eq (hbyte 3 (by decide)) (hbyte 4 (by decide)) hnibble5
  · rw [hbyte 6 (by decide), hbyte 7 (by decide)]

end Sys2Proof.Machine
end

section
/-! A step that answers with an error (spec R204): no block state is written. -/

namespace Sys2Proof.Machine

/-- R81, R100: the one answer that comes with a write to the store reports success. -/
theorem succeeded_decodeResponse (c : Coeffs) : succeeded (decodeResponse c) = true := rfl

/-- R204, one command: if its answer is an error, handing that answer out is all it does. -/
theorem exec_eq_deliver_of_error {i : Instr} {s t : State} {r : Record} (h : exec i s = .next t)
    (hresponse : t.responses = s.responses ++ [r]) (herror : succeeded r = false) : t = s.deliver r := by
  by_cases hi : LoadsStore i
  · obtain ⟨buf, rfl, hlen⟩ := hi
    obtain rfl : (s.loadStore _).deliver _ = t := by simpa [exec_decode_of_length s hlen] using h
    obtain rfl : decodeResponse (coeffsOfBuffer s.config buf) = r := by simpa using hresponse
    exact absurd herror (by simp [succeeded_decodeResponse])
  · obtain ⟨r', hr'⟩ := exec_eq_deliver_of_not_loadsStore s hi
    obtain rfl : s.deliver r' = t := by simpa [hr'] using h
    obtain rfl : r' = r := by simpa using hresponse
    rfl

/-- Settles O44: of the four kinds of step, a wait and a reset answer nothing; a command's error and a reserved byte's
answer are delivered to the state with the record taken, and nothing else is done to it. -/
theorem errorsWriteNoBlockState : Obligations.ErrorsWriteNoBlockState := by
  intro s t r hstep hresponse herror
  obtain ⟨-, rfl⟩ | ⟨rest, -, rfl⟩ | ⟨cmd, rest, i, hpending, -, hexec⟩ | ⟨cmd, rest, hpending, -, rfl⟩ := step_cases hstep
  · simp at hresponse
  · simp at hresponse
  · have hdeliver : t = State.deliver { s with pending := rest } r := exec_eq_deliver_of_error hexec hresponse herror
    rw [hdeliver, hpending]
    rfl
  · obtain rfl : errorRecord .rspErr .reservedOperation = r := by simpa using hresponse
    rw [hpending]
    rfl

end Sys2Proof.Machine
end

section
/-! Commands and their records (spec R71-R78): decoding and encoding are inverse to one another. -/

namespace Sys2Proof.Machine

/-- R75, R78: each format's operand bytes read back as the command's operands. -/
theorem decodeOperands_operandBytes (i : Instr) : decodeOperands i.op i.operandBytes = some i := by
  cases i with
  | decode buf => rfl
  | compt rawT => exact congrArg (some ∘ Instr.compt) (word32_bytes32 rawT)
  | compp tFine rawP => exact congrArg₂ (fun t p => some (Instr.compp t p)) (word32_bytes32 tFine) (word32_bytes32 rawP)
  | comph tFine rawH => exact congrArg₂ (fun t h => some (Instr.comph t h)) (word32_bytes32 tFine) (word16_bytes16 rawH)
  | unpack buf => rfl

/-- R72, R75: a command's record decodes to the command. -/
theorem decodeRecord_encode (i : Instr) : decodeRecord (encode i) = .command i :=
  (decodeRecord_eq_command_iff _ i).2 ⟨_, _, i.op, rfl, opOf_commandByte i.op, decodeOperands_operandBytes i⟩

/-- Settles O1: every command term is well formed, so the round trip holds of all. -/
theorem decodeOfEncodeIsTheCommand : Obligations.DecodeOfEncodeIsTheCommand := fun i _ => decodeRecord_encode i

/-- R75, R78: the bytes an operation takes as operands are the operand bytes of the command it gives. -/
theorem op_and_operandBytes_of_decodeOperands {op : Op} {rest : Record} {i : Instr}
    (h : decodeOperands op rest = some i) : i.op = op ∧ i.operandBytes = rest := by
  cases op with
  | decode =>
    obtain rfl : Instr.decode rest = i := Option.some.inj h
    exact ⟨rfl, rfl⟩
  | compt =>
    have hlen := (decodeFmtT_isSome_iff rest).1 (Option.isSome_of_eq_some h)
    match rest, hlen, h with
    | [b0, b1, b2, b3], _, h =>
      obtain rfl : Instr.compt _ = i := Option.some.inj h
      exact ⟨rfl, bytes32_word32 b0 b1 b2 b3⟩
  | compp =>
    have hlen := (decodeFmtP_isSome_iff rest).1 (Option.isSome_of_eq_some h)
    match rest, hlen, h with
    | [b0, b1, b2, b3, b4, b5, b6, b7], _, h =>
      obtain rfl : Instr.compp _ _ = i := Option.some.inj h
      exact ⟨rfl, congrArg₂ (· ++ ·) (bytes32_word32 b0 b1 b2 b3) (bytes32_word32 b4 b5 b6 b7)⟩
  | comph =>
    have hlen := (decodeFmtH_isSome_iff rest).1 (Option.isSome_of_eq_some h)
    match rest, hlen, h with
    | [b0, b1, b2, b3, b4, b5], _, h =>
      obtain rfl : Instr.comph _ _ = i := Option.some.inj h
      exact ⟨rfl, congrArg₂ (· ++ ·) (bytes32_word32 b0 b1 b2 b3) (bytes16_word16 b4 b5)⟩
  | unpack =>
    obtain rfl : Instr.unpack rest = i := Option.some.inj h
    exact ⟨rfl, rfl⟩

/-- R72: a record that decodes to a command begins with the command's byte and goes on with its operand bytes. -/
theorem encode_of_decodeRecord {r : Record} {i : Instr} (h : decodeRecord r = .command i) : encode i = r := by
  obtain ⟨b, rest, op, rfl, hop, hoperands⟩ := (decodeRecord_eq_command_iff r i).1 h
  obtain ⟨rfl, rfl⟩ := op_and_operandBytes_of_decodeOperands hoperands
  rw [encode, (opOf_eq_some_iff b i.op).1 hop]

/-- Settles O2: the command byte and the operand bytes are both determined by the command. -/
theorem encodeOfDecodeIsTheRecord : Obligations.EncodeOfDecodeIsTheRecord := fun _ _ h => encode_of_decodeRecord h

/-- Settles O4: five closed records, which the decoder is run on. -/
theorem handWrittenRecordsDecode : Obligations.HandWrittenRecordsDecode := by
  unfold Obligations.HandWrittenRecordsDecode
  decide

end Sys2Proof.Machine
end

section
/-! A command as one answer and one write to the store (spec R32, R70, R204): its answer depends on the parameters and on
R40's view of the block alone, and only a DECODE of 42 bytes writes. -/

namespace Sys2Proof.Machine

/-- The answer of a command, from the parameters and R40's view of the block. -/
def commandAnswer (cfg : Config) (st : Store) : Instr → Record
  | .decode buf =>
    if buf.length = 42 then decodeResponse (coeffsOfBuffer cfg buf) else errorRecord .rspDecode .invalidCalibrationLength
  | .compt rawT =>
    match st with
    | .uninit => errorRecord .rspT .notCalibrated
    | .ready c => temperatureResponse (tempOutput (tempFine c rawT)) (tempFine c rawT)
  | .compp tFine rawP =>
    match st with
    | .uninit => errorRecord .rspP .notCalibrated
    | .ready c => pressureResponse (presOutput c tFine rawP)
  | .comph tFine rawH =>
    match st with
    | .uninit => errorRecord .rspH .notCalibrated
    | .ready c => humidityResponse (humOutput (humChain cfg.humForm c tFine rawH))
  | .unpack buf =>
    if buf.length = 8 then unpackResponse (burstPressure buf) (burstTemperature buf) (burstHumidity buf)
    else errorRecord .rspU .invalidBurstLength

/-- The state a command leaves behind its answer: with the buffer's coefficients after a DECODE of 42 bytes, else as it
was. -/
def State.afterWrite (s : State) : Instr → State
  | .decode buf => if buf.length = 42 then s.loadStore (coeffsOfBuffer s.config buf) else s
  | .compt _ => s
  | .compp _ _ => s
  | .comph _ _ => s
  | .unpack _ => s

/-- The whole meaning of every command: its write, then its answer. -/
theorem exec_eq_deliver (i : Instr) (s : State) :
    exec i s = .next ((s.afterWrite i).deliver (commandAnswer s.config s.store i)) := by
  cases i with
  | decode buf =>
    obtain ⟨hlen, hnext⟩ | ⟨hlen, hnext⟩ := execDecode_cases buf s <;>
      simp [exec, hnext, State.afterWrite, commandAnswer, hlen, State.raiseError]
  | compt rawT =>
    obtain ⟨hvalid, hnext⟩ | ⟨hvalid, hnext⟩ := execCompt_cases rawT s <;>
      simp [exec, hnext, State.afterWrite, commandAnswer, hvalid, State.raiseError]
  | compp tFine rawP =>
    obtain ⟨hvalid, hnext⟩ | ⟨hvalid, hnext⟩ := execCompp_cases tFine rawP s <;>
      simp [exec, hnext, State.afterWrite, commandAnswer, hvalid, State.raiseError]
  | comph tFine rawH =>
    obtain ⟨hvalid, hnext⟩ | ⟨hvalid, hnext⟩ := execComph_cases tFine rawH s <;>
      simp [exec, hnext, State.afterWrite, commandAnswer, hvalid, State.raiseError]
  | unpack buf =>
    obtain ⟨hlen, hnext⟩ | ⟨hlen, hnext⟩ := execUnpack_cases buf s <;>
      simp [exec, hnext, State.afterWrite, commandAnswer, hlen, State.raiseError]

/-- `exec_eq_deliver` read backwards: the next state is the written state with the answer. -/
theorem eq_deliver_of_exec_eq {i : Instr} {s t : State} (h : exec i s = .next t) :
    t = (s.afterWrite i).deliver (commandAnswer s.config s.store i) := by
  rw [exec_eq_deliver] at h
  exact (Host.Outcome.next.inj h).symm

/-- R32: any command but a DECODE of 42 bytes writes nothing. -/
theorem State.afterWrite_of_not_loadsStore {i : Instr} (s : State) (hi : ¬ LoadsStore i) : s.afterWrite i = s := by
  cases i with
  | decode buf => exact if_neg fun hlen => hi ⟨buf, rfl, hlen⟩
  | compt _ => rfl
  | compp _ _ => rfl
  | comph _ _ => rfl
  | unpack _ => rfl

/-- R32, R100: a DECODE of 42 bytes writes the whole store. -/
theorem State.afterWrite_decode {buf : List Byte} (s : State) (hlen : buf.length = 42) :
    s.afterWrite (.decode buf) = s.loadStore (coeffsOfBuffer s.config buf) :=
  if_pos hlen

/-- A write leaves the parameters and the command interface as they are. -/
theorem State.afterWrite_sameInterface (s : State) (i : Instr) : (s.afterWrite i).sameInterface s := by
  by_cases hi : LoadsStore i
  · obtain ⟨buf, rfl, hlen⟩ := hi
    rw [State.afterWrite_decode s hlen]
    exact ⟨rfl, rfl, rfl⟩
  · rw [State.afterWrite_of_not_loadsStore s hi]
    exact ⟨rfl, rfl, rfl⟩

/-- What a write does is the same whatever the command interface holds. -/
theorem State.afterWrite_interface (s : State) (i : Instr) (history : List Record) (inputs : List HostInput) :
    State.afterWrite { s with responses := history, pending := inputs } i =
      { s.afterWrite i with responses := history, pending := inputs } := by
  by_cases hi : LoadsStore i
  · obtain ⟨buf, rfl, hlen⟩ := hi
    rw [State.afterWrite_decode _ hlen, State.afterWrite_decode s hlen]
    rfl
  · rw [State.afterWrite_of_not_loadsStore _ hi, State.afterWrite_of_not_loadsStore s hi]

/-- A command takes nothing from the inputs, keeps the parameters and adds its one answer. -/
theorem exec_interface {i : Instr} {s t : State} (h : exec i s = .next t) :
    t.responses = s.responses ++ [commandAnswer s.config s.store i] ∧ t.config = s.config ∧ t.pending = s.pending := by
  obtain ⟨hconfig, hpending, hresponses⟩ := s.afterWrite_sameInterface i
  obtain rfl := eq_deliver_of_exec_eq h
  exact ⟨by rw [State.deliver_responses, hresponses], hconfig, hpending⟩

/-- Settles O13: every command is a write that keeps the interface, then one answer. -/
theorem everyCommandCompletesAndKeepsItsFrame : Obligations.EveryCommandCompletesAndKeepsItsFrame := by
  intro i s
  have hexec := exec_eq_deliver i s
  obtain ⟨hresponses, hconfig, hpending⟩ := exec_interface hexec
  refine ⟨_, _, hexec, hresponses, hconfig, hpending, fun hi => ?_⟩
  exact (exec_keeps_store_of_not_loadsStore hi hexec).symm

/-- Settles O14: a wait takes nothing, and each other kind of step takes the head of the queue; a command adds its answer
and a reserved byte adds RSP_ERR. -/
theorem stepTakesOneInputInOrder : Obligations.StepTakesOneInputInOrder := by
  intro s t hstep
  obtain ⟨hpending, rfl⟩ | ⟨rest, hpending, rfl⟩ | ⟨r, rest, i, hpending, -, hexec⟩ | ⟨r, rest, hpending, -, rfl⟩ :=
    step_cases hstep
  · simp [hpending]
  · simp [hpending]
  · obtain ⟨hresponses, hconfig, hqueue⟩ := exec_interface hexec
    exact ⟨by rw [hqueue, hpending, List.tail_cons], hconfig, .inr ⟨_, hresponses⟩, fun _ _ _ => by simp [hresponses]⟩
  · simp [hpending]

/-- Settles O8: `step` on a pending command record is `exec` of what it decodes to. -/
theorem stepRunsTheDecodedCommand : Obligations.StepRunsTheDecodedCommand := by
  intro s r inputs i hpending hdecode _
  simp only [step, State.takeInput_of_cons s _ _ hpending, hdecode]

/-- Settles O9: the reset input clears CALIB_VALID and rewrites the registers, and nothing else. -/
theorem resetInputGivesUninit : Obligations.ResetInputGivesUninit := by
  intro s inputs hpending
  have hstep : step s = .next (State.assertReset { s with pending := inputs }) := by
    simp only [step, State.takeInput_of_cons s _ _ hpending]
  exact ⟨_, hstep, rfl, rfl, rfl, rfl, rfl, rfl⟩

/-- Settles O10: these are the fields `State.reset` is written with. -/
theorem resetStateIsUninit : Obligations.ResetStateIsUninit := ⟨rfl, rfl, rfl, rfl, rfl, rfl⟩

/-- Settles O11: with nothing pending there is no input to take. -/
theorem idleBlockWaits : Obligations.IdleBlockWaits := by
  intro s hpending
  simp only [step, State.takeInput_of_nil s hpending, State.idle]

/-- Settles O12: the decoder names the empty record. -/
theorem emptyRecordIsRefused : Obligations.EmptyRecordIsRefused := fun _ _ hpending => step_of_notACommand hpending rfl

/-- Settles O31: the answer in `Uninit` is the error record of the command's own format. -/
theorem compensationBeforeDecodeIsNotCalibrated : Obligations.CompensationBeforeDecodeIsNotCalibrated := by
  intro s hvalid
  have hanswer : ∀ i, ¬ LoadsStore i → exec i s = .next (s.deliver (commandAnswer s.config .uninit i)) := fun i hi => by
    rw [exec_eq_deliver, State.afterWrite_of_not_loadsStore s hi, State.store_of_uninit s hvalid]
  exact ⟨fun rawT => hanswer (.compt rawT) (by simp [LoadsStore]),
    fun tFine rawP => hanswer (.compp tFine rawP) (by simp [LoadsStore]),
    fun tFine rawH => hanswer (.comph tFine rawH) (by simp [LoadsStore])⟩

/-- Settles O48: neither the write nor the answer reads the command interface. -/
theorem commandsReadNoEarlierResponse : Obligations.CommandsReadNoEarlierResponse := by
  intro i s
  have hexec := exec_eq_deliver i s
  obtain ⟨hresponses, -, -⟩ := exec_interface hexec
  refine ⟨_, _, hexec, hresponses, fun history inputs => ?_⟩
  rw [exec_eq_deliver, State.afterWrite_interface]
  rfl

/-- Settles O25: the second DECODE finds the same parameters, so it writes the same store and gives the same answer. -/
theorem repeatedDecodeIsOneDecode : Obligations.RepeatedDecodeIsOneDecode := by
  intro buf s t u ht hu
  obtain ⟨htresponses, hconfig, -⟩ := exec_interface ht
  obtain ⟨huresponses, -, -⟩ := exec_interface hu
  have hanswer : commandAnswer t.config t.store (.decode buf) = commandAnswer s.config s.store (.decode buf) := by
    simp only [commandAnswer, hconfig]
  rw [hanswer] at huresponses
  by_cases hlen : buf.length = 42
  · obtain ⟨htvalid, htcoeffs⟩ := exec_decode_sets_store hlen ht
    obtain ⟨huvalid, hucoeffs⟩ := exec_decode_sets_store hlen hu
    exact ⟨huvalid.trans htvalid.symm, by rw [hucoeffs, htcoeffs, hconfig], _, htresponses, huresponses⟩
  · have hi : ¬ LoadsStore (.decode buf) := by simpa [LoadsStore] using hlen
    obtain ⟨hcoeffs, hvalid⟩ := exec_keeps_store_of_not_loadsStore hi hu
    exact ⟨hvalid, hcoeffs, _, htresponses, huresponses⟩

/-- Settles O45: the only writer of CALIB_VALID besides the reset input is the DECODE of 42 bytes, whose record is known
from its decoding. -/
theorem calibValidChangesOnlyByDecodeAndReset : Obligations.CalibValidChangesOnlyByDecodeAndReset := by
  intro s t hstep
  by_cases hsame : t.calibValid = s.calibValid
  · exact ⟨fun hset hclear => by simp [hset, hclear] at hsame, fun hclear hset => by simp [hset, hclear] at hsame⟩
  obtain ⟨-, rfl⟩ | ⟨rest, hpending, rfl⟩ | ⟨r, rest, i, hpending, hdecode, hexec⟩ | ⟨r, rest, -, -, rfl⟩ :=
    step_cases hstep
  · exact absurd rfl hsame
  · exact ⟨fun _ _ => by rw [hpending]; rfl, fun _ hset => by simp at hset⟩
  · by_cases hi : LoadsStore i
    · obtain ⟨buf, rfl, hlen⟩ := hi
      obtain ⟨hvalid, -⟩ := exec_decode_sets_store hlen hexec
      obtain rfl := encode_of_decodeRecord hdecode
      exact ⟨fun _ hclear => by simp [hvalid] at hclear, fun _ _ => ⟨buf, hlen, by rw [hpending]; rfl⟩⟩
    · exact absurd (exec_keeps_store_of_not_loadsStore hi hexec).2 hsame
  · exact absurd rfl hsame

end Sys2Proof.Machine
end

section
/-! H4 and H5 (spec R104, R120, R121, R125): a byte and a nibble packed into 16 bits lie in the parameter's range, and a
value in that range is packed from its own upper byte and lower nibble. -/

namespace Sys2Proof.Machine

open Sys2Proof.Claims

/-- R31: what DECODE packs is in range. -/
theorem packNibble_inRange (cfg : Config) (b : Byte) (n : BitVec 4) : packedInRange cfg (packNibble cfg b n) := by
  have hn := n.isLt
  cases h : cfg.h45MsbSigned with
  | true =>
    have hlo : -128 ≤ b.toInt := BitVec.le_toInt b
    have hhi : b.toInt < 128 := BitVec.toInt_lt
    simp only [packedInRange, h, if_true, packNibble_toInt_signed cfg b n h]
    omega
  | false =>
    have hb := b.isLt
    simp only [packedInRange, h, Bool.false_eq_true, if_false, packNibble_toNat_unsigned cfg b n h]
    omega

/-- R125: a value in range is packed from the byte and the nibble it splits into. -/
theorem packNibble_of_inRange {cfg : Config} {v : Word16} (hv : packedInRange cfg v) :
    packNibble cfg (v.extractLsb' 4 8) (v.extractLsb' 0 4) = v := by
  have hbyte : (v.extractLsb' 4 8).toNat = v.toNat / 16 % 256 := by
    simp [BitVec.extractLsb'_toNat, Nat.shiftRight_eq_div_pow]
  have hnibble : (v.extractLsb' 0 4).toNat = v.toNat % 16 := by simp
  have hlt := v.isLt
  cases h : cfg.h45MsbSigned with
  | true =>
    simp only [packedInRange, h, if_true, toInt_eq_int16Of, int16Of] at hv
    rw [← BitVec.toInt_inj, packNibble_toInt_signed cfg _ _ h, toInt_eq_int8Of, toInt_eq_int16Of, hbyte, hnibble,
      int8Of, int16Of]
    split at hv <;> split <;> omega
  | false =>
    simp only [packedInRange, h, Bool.false_eq_true, if_false] at hv
    apply BitVec.eq_of_toNat_eq
    rw [packNibble_toNat_unsigned cfg _ _ h, hbyte, hnibble]
    omega

/-- R15: the low nibble of a byte made of two nibbles. -/
theorem lowNibble_append (hi lo : BitVec 4) : lowNibble (hi ++ lo) = lo := by
  revert hi lo; decide

/-- R15: the high nibble of a byte made of two nibbles. -/
theorem highNibble_append (hi lo : BitVec 4) : highNibble (hi ++ lo) = hi := by
  revert hi lo; decide

/-- R125, R105-R122: the extraction undoes the encoding, field by field, whatever fills the unused offsets. -/
theorem coeffsOfBuffer_encodeCoeffs {cfg : Config} {c : Coeffs} (fill24 : Byte) (fill33 : List Byte)
    (hc : c.inRange cfg) : coeffsOfBuffer cfg (encodeCoeffs c fill24 fill33) = c := by
  obtain ⟨h4range, h5range⟩ := hc
  have h4 : packNibble cfg (c.h4.extractLsb' 4 8) (lowNibble (c.h5.extractLsb' 0 4 ++ c.h4.extractLsb' 0 4)) = c.h4 := by
    rw [lowNibble_append, packNibble_of_inRange h4range]
  have h5 : packNibble cfg (c.h5.extractLsb' 4 8) (highNibble (c.h5.extractLsb' 0 4 ++ c.h4.extractLsb' 0 4)) = c.h5 := by
    rw [highNibble_append, packNibble_of_inRange h5range]
  simp [coeffsOfBuffer, encodeCoeffs, bytes16, s16le, u16le, bufByte, h4, h5]

/-- R125: an encoded coefficient set has the length R101 asks for. -/
theorem length_encodeCoeffs (c : Coeffs) (fill24 : Byte) {fill33 : List Byte} (hfill : fill33.length = 9) :
    (encodeCoeffs c fill24 fill33).length = 42 := by
  simp [encodeCoeffs, hfill]

/-- Settles O23: the buffer has 42 bytes, and the extraction gives the set back. -/
theorem coefficientsSurviveEncodeAndDecode : Obligations.CoefficientsSurviveEncodeAndDecode := by
  intro c s fill24 fill33 hfill hc
  have hexec := exec_decode_of_length s (length_encodeCoeffs c fill24 hfill)
  exact ⟨_, hexec, rfl, coeffsOfBuffer_encodeCoeffs fill24 fill33 hc⟩

/-- R120, R121 with the parameter true, over the numbers of the two bytes. -/
theorem packNibble_toInt_of_signed {cfg : Config} (h : cfg.h45MsbSigned = true) (b : Byte) (n : BitVec 4) :
    (packNibble cfg b n).toInt = int8Of b.toNat * 16 + n.toNat := by
  rw [packNibble_toInt_signed cfg b n h, toInt_eq_int8Of]

/-- R120, R121 with the parameter false: 12 bits, so the word is not negative. -/
theorem packNibble_toInt_of_unsigned {cfg : Config} (h : cfg.h45MsbSigned = false) (b : Byte) (n : BitVec 4) :
    (packNibble cfg b n).toInt = ((b.toNat * 16 + n.toNat : Nat) : Int) := by
  have hb := b.isLt
  have hn := n.isLt
  rw [BitVec.toInt_eq_toNat_of_lt, packNibble_toNat_unsigned cfg b n h]
  rw [packNibble_toNat_unsigned cfg b n h]
  omega

/-- Settles O18: H4 takes the low nibble of byte 30 and H5 the high one. -/
theorem decodeLoadsPackedCoefficients : Obligations.DecodeLoadsPackedCoefficients := by
  intro buf s hlen
  refine ⟨_, exec_decode_of_length s hlen, rfl, fun hsigned => ?_, fun hunsigned => ?_⟩
  · have hpacked := packNibble_toInt_of_signed hsigned
    exact ⟨lowNibble_toNat (bufByte buf 30) ▸ hpacked _ _, highNibble_toNat (bufByte buf 30) ▸ hpacked _ _⟩
  · have hpacked := packNibble_toInt_of_unsigned hunsigned
    exact ⟨lowNibble_toNat (bufByte buf 30) ▸ hpacked _ _, highNibble_toNat (bufByte buf 30) ▸ hpacked _ _⟩

/-- R31: the coefficients DECODE loads are in range. -/
theorem coeffsOfBuffer_inRange (cfg : Config) (buf : List Byte) : (coeffsOfBuffer cfg buf).inRange cfg :=
  ⟨packNibble_inRange cfg _ _, packNibble_inRange cfg _ _⟩

/-- Every command keeps the range invariant: a DECODE of 42 bytes makes it, and no other command touches the store. -/
theorem exec_keeps_storeInRange {i : Instr} {s t : State} (hs : s.storeInRange) (h : exec i s = .next t) :
    t.storeInRange := by
  obtain ⟨-, hconfig, -⟩ := exec_interface h
  intro hvalid
  rw [hconfig]
  by_cases hi : LoadsStore i
  · obtain ⟨buf, rfl, hlen⟩ := hi
    rw [(exec_decode_sets_store hlen h).2]
    exact coeffsOfBuffer_inRange s.config buf
  · obtain ⟨hcoeffs, hsame⟩ := exec_keeps_store_of_not_loadsStore hi h
    rw [hcoeffs]
    exact hs (hsame ▸ hvalid)

/-- Settles O26: of the four kinds of step only a command can leave a Ready block with other coefficients. -/
theorem stepKeepsTheStoreInRange : Obligations.StepKeepsTheStoreInRange := by
  intro s t hs hstep
  obtain ⟨-, rfl⟩ | ⟨rest, -, rfl⟩ | ⟨r, rest, i, -, -, hexec⟩ | ⟨r, rest, -, -, rfl⟩ := step_cases hstep
  · exact hs
  · exact fun hvalid => absurd hvalid (by simp)
  · exact exec_keeps_storeInRange (s := { s with pending := rest }) hs hexec
  · exact hs

/-- Settles O27: after reset the block is not Ready. -/
theorem resetStoreIsInRange : Obligations.ResetStoreIsInRange := fun hvalid => absurd hvalid (by decide)

end Sys2Proof.Machine
end

section
/-! Every answer of the block is a response record as R80 and R200 allow it, and it stays in the host's hands unchanged. -/

namespace Sys2Proof.Machine

/-- R80, R201: an error record of any format is well formed. -/
theorem responseWellFormed_errorRecord (f : ResponseFormat) (e : Status) : responseWellFormed (errorRecord f e) = true := by
  cases f <;> cases e <;> rfl

/-- R81-R85: beside STATUS 0x00 only the length is bound. -/
theorem responseWellFormed_ok {fields : Record} (hlen : fields.length ∈ [0, 4, 8, 10, 36]) :
    responseWellFormed (statusCode .ok :: fields) = true := by
  simpa [responseWellFormed, statusCode] using hlen

/-- R80-R85: whichever way a command ends, its answer is well formed. -/
theorem responseWellFormed_commandAnswer (cfg : Config) (st : Store) (i : Instr) :
    responseWellFormed (commandAnswer cfg st i) = true := by
  cases i with
  | decode buf =>
    by_cases hlen : buf.length = 42
    · rw [commandAnswer, if_pos hlen]
      exact responseWellFormed_ok (by simp [coeffPatterns])
    · rw [commandAnswer, if_neg hlen]
      exact responseWellFormed_errorRecord _ _
  | compt rawT =>
    cases st with
    | uninit => exact responseWellFormed_errorRecord _ _
    | ready c => exact responseWellFormed_ok (by simp)
  | compp tFine rawP =>
    cases st with
    | uninit => exact responseWellFormed_errorRecord _ _
    | ready c => exact responseWellFormed_ok (by simp)
  | comph tFine rawH =>
    cases st with
    | uninit => exact responseWellFormed_errorRecord _ _
    | ready c => exact responseWellFormed_ok (by simp)
  | unpack buf =>
    by_cases hlen : buf.length = 8
    · rw [commandAnswer, if_pos hlen]
      exact responseWellFormed_ok (by simp)
    · rw [commandAnswer, if_neg hlen]
      exact responseWellFormed_errorRecord _ _

/-- The invariant survives one more response that is well formed. -/
theorem responsesWellFormed_of_append {s t : State} {r : Record} (hs : s.responsesWellFormed)
    (ht : t.responses = s.responses ++ [r]) (hr : responseWellFormed r = true) : t.responsesWellFormed := by
  rw [State.responsesWellFormed, ht, List.all_append, hs]
  simp [hr]

/-- Settles O46: a step adds no response, a command's answer, or RSP_ERR. -/
theorem stepKeepsResponsesWellFormed : Obligations.StepKeepsResponsesWellFormed := by
  intro s t hs hstep
  obtain ⟨-, rfl⟩ | ⟨rest, -, rfl⟩ | ⟨r, rest, i, -, -, hexec⟩ | ⟨r, rest, -, -, rfl⟩ := step_cases hstep
  · exact hs
  · exact hs
  · obtain ⟨hresponses, -, -⟩ := exec_interface hexec
    exact responsesWellFormed_of_append hs hresponses (responseWellFormed_commandAnswer _ _ i)
  · exact responsesWellFormed_of_append hs rfl (responseWellFormed_errorRecord _ _)

/-- Settles O47: after reset there is no response. -/
theorem resetResponsesAreWellFormed : Obligations.ResetResponsesAreWellFormed := rfl

end Sys2Proof.Machine
end

section
/-! Who reads the store (spec R33, R40): each compensation its own coefficients, and nobody while CALIB_VALID is 0; COMPP and
COMPH write nothing, so they commute (70_reset_and_hazards.md section 4). -/

namespace Sys2Proof.Machine

open Sys2Proof.Claims

/-- R137-R139 name T1 to T3. -/
theorem tempFine_eq_of_sameT {c d : Coeffs} (h : sameT c d) (rawT : Word32) : tempFine c rawT = tempFine d rawT := by
  obtain ⟨ht1, ht2, ht3⟩ := h
  simp only [tempFine, tempTerm1, tempTerm2, tempDelta, ht1, ht2, ht3]

/-- R142-R148 name P1 to P9. -/
theorem presOutput_eq_of_sameP {c d : Coeffs} (h : sameP c d) (tFine rawP : Word32) :
    presOutput c tFine rawP = presOutput d tFine rawP := by
  obtain ⟨hp1, hp2, hp3, hp4, hp5, hp6, hp7, hp8, hp9⟩ := h
  have hresult : ∀ norm v2, presResult c norm v2 rawP = presResult d norm v2 rawP := fun norm v2 => by
    simp only [presResult, presFinal, hp7, hp8, hp9]
  simp only [presOutput, hresult, presNorm, presTerm1, presTerm2, hp1, hp2, hp3, hp4, hp5, hp6]

/-- R153 names H1 to H6. -/
theorem humChain_eq_of_sameH {c d : Coeffs} (h : sameH c d) (form : HumForm) (tFine : Word32) (rawH : Word16) :
    humChain form c tFine rawH = humChain form d tFine rawH := by
  obtain ⟨hh1, hh2, hh3, hh4, hh5, hh6⟩ := h
  simp only [humChain, humLinearise, humReading, humGain, hh1, hh2, hh3, hh4, hh5, hh6]

/-- Two states give a command one answer if the answer computed from each is the same. -/
theorem sameAnswer_of_commandAnswer_eq {i : Instr} {s t : State}
    (h : commandAnswer s.config s.store i = commandAnswer t.config t.store i) : sameAnswer i s t := by
  have hs := exec_eq_deliver i s
  have ht := exec_eq_deliver i t
  exact ⟨_, _, _, hs, ht, (exec_interface hs).1, h ▸ (exec_interface ht).1⟩

/-- R33, R40: while CALIB_VALID is 0 the view of the block has no register in it. -/
theorem sameAnswer_of_uninit {s t : State} (hs : s.calibValid = false) (ht : t.calibValid = false)
    (hcfg : s.config = t.config) (i : Instr) : sameAnswer i s t :=
  sameAnswer_of_commandAnswer_eq (by rw [State.store_of_uninit s hs, State.store_of_uninit t ht, hcfg])

/-- The answer of a compensation, which reads no parameter but HUM_FORM, is the same in two `Uninit` blocks, and in two
Ready ones if it is so for their coefficients. -/
theorem sameAnswer_of_store {i : Instr} {s t : State} (hvalid : s.calibValid = t.calibValid)
    (huninit : commandAnswer s.config .uninit i = commandAnswer t.config .uninit i)
    (hready : commandAnswer s.config (.ready s.coeffs) i = commandAnswer t.config (.ready t.coeffs) i) :
    sameAnswer i s t := by
  apply sameAnswer_of_commandAnswer_eq
  cases hs : s.calibValid with
  | false => rw [State.store_of_uninit s hs, State.store_of_uninit t (hvalid ▸ hs), huninit]
  | true => rw [State.store_of_ready s hs, State.store_of_ready t (hvalid ▸ hs), hready]

/-- Settles O49: a compensation's chain is the same on coefficient sets that agree on what it names. -/
theorem readersSeeOnlyTheirCoefficients : Obligations.ReadersSeeOnlyTheirCoefficients := by
  intro s t hvalid
  refine ⟨fun hT rawT => ?_, fun hP tFine rawP => ?_, fun hH hform tFine rawH => ?_, fun hs hcfg i => ?_⟩
  · exact sameAnswer_of_store hvalid rfl (by simp only [commandAnswer, tempFine_eq_of_sameT hT])
  · exact sameAnswer_of_store hvalid rfl (by simp only [commandAnswer, presOutput_eq_of_sameP hP])
  · exact sameAnswer_of_store hvalid rfl (by simp only [commandAnswer, humChain_eq_of_sameH hH, hform])
  · exact sameAnswer_of_uninit hs (hvalid ▸ hs) hcfg i

/-- A command that does not load the store does its one answer, the same after another response. -/
theorem exec_plusResponse {i : Instr} (hi : ¬ LoadsStore i) (s : State) (r : Record) :
    exec i (plusResponse s r) = .next (plusResponse (plusResponse s r) (commandAnswer s.config s.store i)) := by
  rw [exec_eq_deliver, State.afterWrite_of_not_loadsStore _ hi]
  rfl

/-- Settles O50: neither command writes the block, and neither answer depends on the response before it. -/
theorem pressureAndHumidityCommute : Obligations.PressureAndHumidityCommute := by
  intro tFine rawP tFine' rawH s
  have hp : ¬ LoadsStore (.compp tFine rawP) := by simp [LoadsStore]
  have hh : ¬ LoadsStore (.comph tFine' rawH) := by simp [LoadsStore]
  exact ⟨_, _, exec_eq_deliver _ s, exec_plusResponse hh s _, exec_eq_deliver _ s, exec_plusResponse hp s _⟩

end Sys2Proof.Machine
end

section
/-! Ranges the spec marks as derived: t_fine and TEMP (41_compensation.md section 2), the shift of the pressure division
(section 3) and HUM (section 4). -/

namespace Sys2Proof.Machine

open Sys2Proof.Claims

/-- R139: the fine-value is the sum of the terms, which are far from the width's ends. -/
theorem tempFine_toInt_eq_add (c : Coeffs) (rawT : Word32) :
    (tempFine c rawT).toInt = (tempTerm1 c rawT).toInt + (tempTerm2 c rawT).toInt := by
  obtain ⟨-, hlo₁, hhi₁, -, -, -, hlo₂, hhi₂⟩ := temperatureTermsAndTheirBounds.2 c rawT
  rw [tempFine, toInt_add_wrap, wrap_eq_self (by omega) (by omega)]

/-- R139: the fine-value's range is the sum of the terms' ranges. -/
theorem tempFine_bounds (c : Coeffs) (rawT : Word32) :
    -1179648 ≤ (tempFine c rawT).toInt ∧ (tempFine c rawT).toInt ≤ 1179646 := by
  obtain ⟨-, hlo₁, hhi₁, -, -, -, hlo₂, hhi₂⟩ := temperatureTermsAndTheirBounds.2 c rawT
  rw [tempFine_toInt_eq_add]
  omega

/-- R139: on a fine-value in that range the output does not wrap. -/
theorem tempOutput_toInt_of_bounds {tFine : Word32} (hlo : -1179648 ≤ tFine.toInt) (hhi : tFine.toInt ≤ 1179646) :
    (tempOutput tFine).toInt = (tFine.toInt * 5 + 128).fdiv 256 := by
  rw [tempOutput_toInt, intTempOutput, wrap_eq_self (x := tFine.toInt * 5) (by omega) (by omega),
    wrap_eq_self (by omega) (by omega)]
  rfl

/-- Settles O30: the ranges of the terms bound the fine-value, and its range bounds TEMP. -/
theorem fineValueAndTemperatureNeverWrap : Obligations.FineValueAndTemperatureNeverWrap := by
  intro c rawT
  obtain ⟨hlo, hhi⟩ := tempFine_bounds c rawT
  have houtput := tempOutput_toInt_of_bounds hlo hhi
  refine ⟨tempFine_toInt_eq_add c rawT, hlo, hhi, houtput, ?_⟩
  rw [houtput, Int.fdiv_eq_ediv_of_nonneg _ (by decide)]
  omega

/-- Settles O35: 1048576 - raw_p has 33 bits, so its shift by 31 fits 64. -/
theorem pressureShiftNeverWraps : Obligations.PressureShiftNeverWraps := by
  intro rawP
  have hlo : -2147483648 ≤ rawP.toInt := BitVec.le_toInt rawP
  have hhi : rawP.toInt < 2147483648 := BitVec.toInt_lt
  constructor
  · rw [toInt_shl, toInt_sub_wrap, toInt_sext64 rawP (by decide), show (1048576 : Word64).toInt = 1048576 from rfl,
      wrap_eq_self (x := 1048576 - rawP.toInt) (by omega) (by omega), wrap_eq_self (by omega) (by omega)]
  · rw [abs_le]
    omega

/-- R201: the HUM field of an error response is 0. -/
theorem fieldOf_errorRecord_rspH : fieldOf (errorRecord .rspH .notCalibrated) 39 8 = 0 := by decide

/-- Settles O39: a Ready block answers a clamped value, and an `Uninit` one 0. -/
theorem humidityAlwaysInRange : Obligations.HumidityAlwaysInRange := by
  intro tFine rawH s t hexec
  obtain ⟨hresponses, -, -⟩ := exec_interface hexec
  refine ⟨_, hresponses, ?_⟩
  cases s.store with
  | uninit => exact fieldOf_errorRecord_rspH.trans_le (by decide)
  | ready c =>
    have hnat := humOutput_toNat (humChain s.config.humForm c tFine rawH)
    obtain ⟨-, hhi⟩ := intHumOutput_bounds (humChain s.config.humForm c tFine rawH).toInt
    rw [commandAnswer, fieldOf_humidityResponse]
    omega

/-- R157: the first clamp leaves at most 102400 * 4096, so the quotient is at most 102400. -/
theorem divT_clampS_le (v5 : Word32) : (divT (clampS v5 0 419430400) 4096).toInt ≤ 102400 := by
  obtain ⟨hlo, hhi⟩ := clampInt_bounds v5.toInt 0 419430400 (by decide)
  have hclamp : (clampS v5 0 419430400).toInt = clampInt v5.toInt 0 419430400 := clampS_toInt v5 0 419430400
  rw [toInt_divT_of_pos _ (by decide), hclamp, show (4096 : Word32).toInt = 4096 from rfl, Int.tdiv_eq_ediv_of_nonneg hlo]
  omega

/-- Settles O40: `min` with 102400 keeps a value that is not above it. -/
theorem secondHumidityClampChangesNothing : Obligations.SecondHumidityClampChangesNothing := by
  intro v5
  rw [humOutput, minS, if_neg]
  rw [BitVec.slt_iff_toInt_lt]
  exact not_lt.2 (divT_clampS_le v5)

end Sys2Proof.Machine
end

section
/-! Lines without names (spec R87, R90): the numbers they are printed with read back, and a command's line assembles to the
command's record. -/

namespace Sys2Proof.Machine

open Sys2Proof.Claims

/-! ## From numbers to records -/

/-- A line that names nothing: a verb and numbers. -/
def numericLine (v : Verb) (vs : List Int) : AsmLine := { verb := v, operands := vs.map .number, binds := [] }

/-- The operands of a command as the numbers a line gives them by (R87). -/
def operandValues : Instr → List Int
  | .decode buf => byteValues buf
  | .compt rawT => [rawT.toInt]
  | .compp tFine rawP => [tFine.toInt, rawP.toInt]
  | .comph tFine rawH => [tFine.toInt, (rawH.toNat : Int)]
  | .unpack buf => byteValues buf

/-- Bytes as operands are their numbers as operands. -/
theorem byteOperands_eq (bs : List Byte) : byteOperands bs = (byteValues bs).map .number := by
  rw [byteOperands, byteValues, List.map_map]
  rfl

/-- The line a command is disassembled to. -/
theorem instrLine_eq_numericLine (i : Instr) : instrLine i = numericLine (mnemonicOf i.op) (operandValues i) := by
  cases i with
  | decode buf => exact congrArg (AsmLine.mk .decode · []) (byteOperands_eq buf)
  | compt _ => rfl
  | compp _ _ => rfl
  | comph _ _ => rfl
  | unpack buf => exact congrArg (AsmLine.mk .unpack · []) (byteOperands_eq buf)

/-- Numbers stand for themselves, whatever names are bound (R88). -/
theorem resolveOperands_numbers (names : List (HostName × Int)) (vs : List Int) :
    resolveOperands names (vs.map .number) = .ok vs := by
  induction vs with
  | nil => rfl
  | cons v vs ih => simp [resolveOperands, resolveOperand, ih]

/-- R87: the numbers of bytes fit `u8`. -/
theorem all_fitsU8_byteValues (bs : List Byte) : (byteValues bs).all fitsU8 = true := fitsU8_toNat bs

/-- The numbers of bytes are taken back to the bytes. -/
theorem asBytes_byteValues (bs : List Byte) : asBytes (byteValues bs) = bs := asBytes_toNat bs

/-- Every operand value is in its own range, and the number is taken back to the operand (R87). -/
theorem lineRecord_operandValues (i : Instr) : lineRecord (mnemonicOf i.op) (operandValues i) = .ok (encode i) := by
  cases i with
  | decode buf =>
    have hfit : Verb.operandsFit .decode (byteValues buf) = true := all_fitsU8_byteValues buf
    simp [lineRecord, Instr.op, mnemonicOf, operandValues, hfit, asBytes_byteValues]
  | compt rawT => simp [lineRecord, Instr.op, mnemonicOf, operandValues, Verb.operandsFit, fitsI32_toInt]
  | compp tFine rawP => simp [lineRecord, Instr.op, mnemonicOf, operandValues, Verb.operandsFit, fitsI32_toInt]
  | comph tFine rawH =>
    simp [lineRecord, Instr.op, mnemonicOf, operandValues, Verb.operandsFit, fitsI32_toInt, fitsU16_toNat]
  | unpack buf =>
    have hfit : Verb.operandsFit .unpack (byteValues buf) = true := all_fitsU8_byteValues buf
    simp [lineRecord, Instr.op, mnemonicOf, operandValues, hfit, asBytes_byteValues]

/-- R87: `.cmd` with the bytes of a record that has a command byte is the record. -/
theorem lineRecord_cmd (b : Byte) (rest : Record) : lineRecord .cmd (byteValues (b :: rest)) = .ok (b :: rest) := by
  have hfit : Verb.operandsFit .cmd (byteValues (b :: rest)) = true := all_fitsU8_byteValues (b :: rest)
  simp [lineRecord, hfit, asBytes_byteValues]

/-! ## From text to numbers -/

/-- The tokens of numbers with commas between them. -/
def numberTokens : List Int → List Token
  | [] => []
  | [v] => [.word (numberText v)]
  | v :: w :: vs => .word (numberText v) :: .comma :: numberTokens (w :: vs)

theorem numberText_ne_nil (v : Int) : numberText v ≠ [] := by
  intro h
  simpa [h, numberOf] using numberOf_numberText v

/-- Operands that are numbers are printed as the numbers. -/
theorem map_operandText_number (vs : List Int) : (vs.map Operand.number).map operandText = vs.map numberText := by
  rw [List.map_map]
  rfl

/-- A number's text reads back as an operand (R87). -/
theorem operandOf_numberText (v : Int) : operandOf (numberText v) = some (.number v) := by
  rw [operandOf, numberOf_numberText]

/-- Printed numbers are read into their tokens. -/
theorem lexLine_commaText (vs : List Int) : lexLine [] (commaText (vs.map numberText)) = numberTokens vs := by
  induction vs with
  | nil => simp [commaText, numberTokens]
  | cons v vs ih =>
    cases vs with
    | nil =>
      have hword := lexLine_numberText v []
      rw [List.append_nil] at hword
      simp [commaText, numberTokens, hword, flushWord_reverse, numberText_ne_nil]
    | cons w vs =>
      have htext : commaText ((v :: w :: vs).map numberText) =
          numberText v ++ ',' :: ' ' :: commaText ((w :: vs).map numberText) := by
        simp [commaText, List.intercalate]
      rw [htext, lexLine_numberText, lexLine_comma, lexLine_space, flushWord_nil, ih,
        flushWord_reverse _ _ (numberText_ne_nil v), numberTokens]

/-- Among the tokens of numbers there is no arrow. -/
theorem splitArrow_numberTokens (vs : List Int) : splitArrow (numberTokens vs) = (numberTokens vs, none) := by
  induction vs with
  | nil => rfl
  | cons v vs ih =>
    cases vs with
    | nil => rfl
    | cons w vs => simp [numberTokens, splitArrow, ih]

/-- The words between the commas are the numbers' texts. -/
theorem wordList_numberTokens (v : Int) (vs : List Int) :
    wordList (numberTokens (v :: vs)) = some ((v :: vs).map numberText) := by
  induction vs generalizing v with
  | nil => rfl
  | cons w vs ih => simp [numberTokens, wordList, ih]

/-- Where words with commas stand, each of them has to be an operand. -/
theorem operandList_of_wordList {ts : List Token} {ws : List (List Char)} (h : wordList ts = some ws) :
    operandList ts = ws.mapM operandOf := by
  cases ts with
  | nil => simp [wordList] at h
  | cons t ts =>
    rw [operandList, h, Option.bind_some]
    simp

/-- The texts of numbers read back as the numbers, one by one. -/
theorem mapM_operandOf_numberText (vs : List Int) : (vs.map numberText).mapM operandOf = some (vs.map .number) := by
  induction vs with
  | nil => rfl
  | cons v vs ih => simp [List.mapM_cons, operandOf_numberText, ih]

/-- The tokens of numbers are the numbers as operands (R87). -/
theorem operandList_numberTokens (vs : List Int) : operandList (numberTokens vs) = some (vs.map .number) := by
  cases vs with
  | nil => rfl
  | cons v vs => rw [operandList_of_wordList (wordList_numberTokens v vs), mapM_operandOf_numberText]

/-- R87: a verb's own spelling is read as the verb. -/
theorem verbOf_verbText (v : Verb) : verbOf (verbText v) = some v := by cases v <;> decide

/-- A verb is spelled with letters, and with a dot. -/
theorem verbText_letters (v : Verb) : ∀ c ∈ verbText v, c.isAlphanum = true ∨ c = '.' := by
  cases v <;> simp [verbText]

theorem verbText_ne_nil (v : Verb) : verbText v ≠ [] := by cases v <;> decide

/-- The tokens of a printed line without names. -/
theorem lexLine_lineText (v : Verb) (vs : List Int) :
    lexLine [] (lineText (numericLine v vs)) = .word (verbText v) :: numberTokens vs := by
  have hverb := fun cs => lexLine_word (verbText v) [] cs (verbText_letters v)
  cases vs with
  | nil =>
    have htext : lineText (numericLine v []) = verbText v ++ [] := by simp [lineText, numericLine]
    rw [htext, hverb, List.append_nil, lexLine_nil, flushWord_reverse _ _ (verbText_ne_nil v), numberTokens]
  | cons w vs =>
    have htext : lineText (numericLine v (w :: vs)) = verbText v ++ ' ' :: commaText ((w :: vs).map numberText) := by
      rw [← map_operandText_number, lineText, numericLine]
      exact List.append_nil _
    rw [htext, hverb, List.append_nil, lexLine_space, flushWord_reverse _ _ (verbText_ne_nil v), lexLine_commaText]

/-- A printed line without names reads back as itself (R87, R90). -/
theorem parseLine_lineText (v : Verb) (vs : List Int) :
    parseLine (lineText (numericLine v vs)) = .ok (some (numericLine v vs)) := by
  simp only [parseLine, lexLine_lineText, verbOf_verbText, splitArrow_numberTokens, operandList_numberTokens, bindList]
  rfl

/-! ## Disassembly -/

/-- What R90 asks of a line without names that assembles to a record: its text begins with its verb and reads back, and it
assembles to the record whatever names are bound. -/
theorem numericLine_roundTrip {v : Verb} {vs : List Int} {r : Record} (h : lineRecord v vs = .ok r) :
    verbText v <+: lineText (numericLine v vs) ∧
      parseLine (lineText (numericLine v vs)) = .ok (some (numericLine v vs)) ∧
      ∀ names, ∃ ws, resolveOperands names (numericLine v vs).operands = .ok ws ∧ lineRecord v ws = .ok r :=
  ⟨⟨_, (List.append_assoc _ _ _).symm⟩, parseLine_lineText v vs, fun names => ⟨vs, resolveOperands_numbers names vs, h⟩⟩

/-- Settles O7: a command's line and a reserved record's line are both a verb and numbers. -/
theorem assemblyOfDisassemblyIsTheRecord : Obligations.AssemblyOfDisassemblyIsTheRecord := by
  intro r hr
  cases hdecode : decodeRecord r with
  | command i =>
    obtain rfl := encode_of_decodeRecord hdecode
    have hline : disassemble (encode i) = some (numericLine (mnemonicOf i.op) (operandValues i)) := by
      simp only [disassemble, hdecode, instrLine_eq_numericLine]
    refine ⟨_, hline, rfl, by simp, ?_, numericLine_roundTrip (lineRecord_operandValues i)⟩
    rintro _ ⟨⟩
    rfl
  | reserved =>
    cases r with
    | nil => simp [decodeRecord] at hdecode
    | cons b rest =>
      have hline : disassemble (b :: rest) = some (numericLine .cmd (byteValues (b :: rest))) := by
        simp only [disassemble, hdecode, byteOperands_eq, numericLine]
      exact ⟨_, hline, rfl, fun _ => ⟨rfl, (byteOperands_eq _).symm⟩, by simp, numericLine_roundTrip (lineRecord_cmd b rest)⟩
  | notACommand why => exact absurd hdecode (hr why)

end Sys2Proof.Machine
end

section
/-! One assembly line run by the host (spec R70, R88): its record is the command's, and its names take the result fields of
the answer. -/

namespace Sys2Proof.Machine

open Sys2Proof.Claims

/-! ## Result fields (R82-R85, R88) -/

theorem resultFields_unpackResponse (rawP rawT : Word32) (rawH : Word16) :
    resultFields .unpack (unpackResponse rawP rawT rawH) = [rawP.toInt, rawT.toInt, (rawH.toNat : Int)] := by
  have hp : respWord32 (unpackResponse rawP rawT rawH) 1 = rawP := word32_bytes32 rawP
  have ht : respWord32 (unpackResponse rawP rawT rawH) 5 = rawT := word32_bytes32 rawT
  have hh : respWord16 (unpackResponse rawP rawT rawH) 9 = rawH := word16_bytes16 rawH
  rw [resultFields, hp, ht, hh]

theorem resultFields_temperatureResponse (temp tFine : Word32) :
    resultFields .compt (temperatureResponse temp tFine) = [temp.toInt, tFine.toInt] := by
  have ht : respWord32 (temperatureResponse temp tFine) 1 = temp := word32_bytes32 temp
  have hf : respWord32 (temperatureResponse temp tFine) 5 = tFine := word32_bytes32 tFine
  rw [resultFields, ht, hf]

theorem resultFields_pressureResponse (pres : Word32) :
    resultFields .compp (pressureResponse pres) = [(pres.toNat : Int)] := by
  have hp : respWord32 (pressureResponse pres) 1 = pres := word32_bytes32 pres
  rw [resultFields, hp]

theorem resultFields_humidityResponse (hum : Word32) :
    resultFields .comph (humidityResponse hum) = [(hum.toNat : Int)] := by
  have hh : respWord32 (humidityResponse hum) 1 = hum := word32_bytes32 hum
  rw [resultFields, hh]

/-- The result fields of a command's record are those of its operation. -/
theorem recordFields_encode (i : Instr) (resp : Record) : recordFields (encode i) resp = resultFields i.op resp := by
  simp [recordFields, encode]

/-! ## Issuing a command -/

/-- A command's record is performed whole, and its answer is the newest response (R70). -/
theorem issueRecord_encode (s : State) (i : Instr) :
    issueRecord s (encode i) =
      .ok ((s.afterWrite i).deliver (commandAnswer s.config s.store i), commandAnswer s.config s.store i) := by
  rw [issueRecord_of_command s _ _ i (decodeRecord_encode i) (exec_eq_deliver i s)]
  simp

section
variable {h : Session} {l : AsmLine} {i : Instr} {a : Record} (hverb : l.verb = mnemonicOf i.op)
  (hargs : resolveOperands h.names l.operands = .ok (operandValues i)) (hi : ¬ LoadsStore i)
  (ha : commandAnswer h.block.config h.block.store i = a) (hbinds : l.binds.length ≤ (resultFields i.op []).length)
include hverb hargs hi ha hbinds

/-- A line that spells a command which writes nothing: the block only answers, and the answer's STATUS says what becomes of
the names. -/
theorem runCommandLine_of_command :
    runCommandLine h l =
      if a.head? = some (statusCode .ok) then
        .ok ({ block := h.block.deliver a, names := (l.binds.zip (resultFields i.op a)).reverse ++ h.names }, true)
      else .ok ({ block := h.block.deliver a, names := dropNames h.names l.binds }, false) := by
  have hrecord : lineRecord l.verb (operandValues i) = .ok (encode i) := hverb ▸ lineRecord_operandValues i
  have hissue := issueRecord_encode h.block i
  rw [ha, State.afterWrite_of_not_loadsStore _ hi] at hissue
  simp only [runCommandLine, hargs, hrecord, recordFields_encode, hissue, not_lt.2 hbinds, if_false]

/-- R88: with STATUS 0x00 the names take the result fields. -/
theorem runCommandLine_of_ok {vs : List Int} (hok : a.head? = some (statusCode .ok)) (hfields : resultFields i.op a = vs) :
    runCommandLine h l =
      .ok ({ block := h.block.deliver a, names := (l.binds.zip vs).reverse ++ h.names }, true) := by
  rw [runCommandLine_of_command hverb hargs hi ha hbinds, if_pos hok, hfields]

/-- R88: with an error status the names are left unbound. -/
theorem runCommandLine_of_error (herror : a.head? ≠ some (statusCode .ok)) :
    runCommandLine h l = .ok ({ block := h.block.deliver a, names := dropNames h.names l.binds }, false) := by
  rw [runCommandLine_of_command hverb hargs hi ha hbinds, if_neg herror]

end

end Sys2Proof.Machine
end

section
/-! `measure` (spec R89): four commands with the readings and the fine-value passed on between them, stopping at the first
error status. -/

namespace Sys2Proof.Machine

open Sys2Proof.Claims

/-! ## The names between the commands -/

/-- The model's name for R89's `rp`. -/
abbrev nameRp : HostName := ['%', 'r', 'p']

/-- The model's name for R89's `rt`. -/
abbrev nameRt : HostName := ['%', 'r', 't']

/-- The model's name for R89's `rh`. -/
abbrev nameRh : HostName := ['%', 'r', 'h']

/-- The model's name for R89's `tf`. -/
abbrev nameTf : HostName := ['%', 't', 'f']

/-- A host name is none of the four (log entry 9). -/
theorem ne_of_isHostName {n m : HostName} (hn : isHostName n = true) (hm : m ∈ measureNames) : n ≠ m :=
  fun h => not_mem_measureNames n hn (h ▸ hm)

/-- Looking a name up passes over the bindings of other names. -/
theorem lookup_cons_of_ne {n m : HostName} (h : n ≠ m) (v : Int) (names : List (HostName × Int)) :
    ((m, v) :: names).lookup n = names.lookup n := by
  rw [List.lookup_cons, beq_false_of_ne h]

/-- One operand given by a bound name. -/
theorem resolveOperands_name {names : List (HostName × Int)} {n : HostName} {v : Int} (h : names.lookup n = some v) :
    resolveOperands names [.name n] = .ok [v] := by
  simp [resolveOperands, resolveOperand, h]

/-- Two operands given by bound names. -/
theorem resolveOperands_two_names {names : List (HostName × Int)} {n m : HostName} {v w : Int}
    (hn : names.lookup n = some v) (hm : names.lookup m = some w) :
    resolveOperands names [.name n, .name m] = .ok [v, w] := by
  simp [resolveOperands, resolveOperand, hn, hm]

/-! ## Running lines until an error -/

theorem runUntilError_cons_of_ok {h h' : Session} {l : AsmLine} (hl : runCommandLine h l = .ok (h', true))
    (ls : List AsmLine) : runUntilError h (l :: ls) = runUntilError h' ls := by
  simp [runUntilError, hl]

theorem runUntilError_cons_of_error {h h' : Session} {l : AsmLine} (hl : runCommandLine h l = .ok (h', false))
    (ls : List AsmLine) : runUntilError h (l :: ls) = .ok (h', false) := by
  simp [runUntilError, hl]

/-- `measure` on eight bytes is its four lines; at the end either its inner names or its three names are dropped. -/
theorem runLine_measure {h h' : Session} {ops : List Operand} {buf : List Byte} {nT nP nH : HostName} {ok : Bool}
    (hops : resolveOperands h.names ops = .ok (byteValues buf)) (hlen : buf.length = 8)
    (hrun : runUntilError h (measureLines ((byteValues buf).map .number) nT nP nH) = .ok (h', ok)) :
    runLine h { verb := .measure, operands := ops, binds := [nT, nP, nH] } =
      .ok ({ block := h'.block,
             names := if ok then dropNames h'.names measureNames else dropNames h.names [nT, nP, nH] }, ok) := by
  have hcount : (byteValues buf).length = 8 := by rw [byteValues, List.length_map, hlen]
  have hfit : Verb.operandsFit .measure (byteValues buf) = true := by
    rw [Verb.operandsFit, all_fitsU8_byteValues, hcount]
    rfl
  cases ok <;> simp [runLine, runMeasure, hops, hfit, hrun]

/-! ## The lines of `measure` -/

/-- The names UNPACK binds, the newest first. -/
def readingNames (buf : List Byte) : List (HostName × Int) :=
  [(nameRh, ((burstHumidity buf).toNat : Int)), (nameRt, (burstTemperature buf).toInt),
    (nameRp, (burstPressure buf).toInt)]

/-- R89's first line, in both states of CALIB_VALID. -/
theorem runCommandLine_measure_unpack (h : Session) {buf : List Byte} (hlen : buf.length = 8) :
    runCommandLine h { verb := .unpack, operands := (byteValues buf).map .number, binds := [nameRp, nameRt, nameRh] } =
      .ok ({ block := h.block.deliver (unpackResponse (burstPressure buf) (burstTemperature buf) (burstHumidity buf)),
             names := readingNames buf ++ h.names }, true) :=
  runCommandLine_of_ok (i := .unpack buf) rfl (resolveOperands_numbers h.names _) (by simp [LoadsStore]) (if_pos hlen)
    (by simp [Instr.op, resultFields]) rfl (resultFields_unpackResponse _ _ _)

section
variable {h : Session} {c : Coeffs} (hready : h.block.store = .ready c)
include hready

/-- R89's second line on a Ready block. -/
theorem runCommandLine_measure_compt {rawT : Word32} (nT : HostName) (hrt : h.names.lookup nameRt = some rawT.toInt) :
    runCommandLine h { verb := .compt, operands := [.name nameRt], binds := [nT, nameTf] } =
      .ok ({ block := h.block.deliver (temperatureResponse (tempOutput (tempFine c rawT)) (tempFine c rawT)),
             names := (nameTf, (tempFine c rawT).toInt) :: (nT, (tempOutput (tempFine c rawT)).toInt) :: h.names },
        true) :=
  runCommandLine_of_ok (i := .compt rawT) rfl (resolveOperands_name hrt) (by simp [LoadsStore])
    (by rw [hready, commandAnswer]) (by simp [Instr.op, resultFields]) rfl (resultFields_temperatureResponse _ _)

/-- R89's third line on a Ready block. -/
theorem runCommandLine_measure_compp {tFine rawP : Word32} (nP : HostName)
    (htf : h.names.lookup nameTf = some tFine.toInt) (hrp : h.names.lookup nameRp = some rawP.toInt) :
    runCommandLine h { verb := .compp, operands := [.name nameTf, .name nameRp], binds := [nP] } =
      .ok ({ block := h.block.deliver (pressureResponse (presOutput c tFine rawP)),
             names := (nP, ((presOutput c tFine rawP).toNat : Int)) :: h.names }, true) :=
  runCommandLine_of_ok (i := .compp tFine rawP) rfl (resolveOperands_two_names htf hrp) (by simp [LoadsStore])
    (by rw [hready, commandAnswer]) (by simp [Instr.op, resultFields]) rfl (resultFields_pressureResponse _)

/-- R89's fourth line on a Ready block. -/
theorem runCommandLine_measure_comph {tFine : Word32} {rawH : Word16} (nH : HostName)
    (htf : h.names.lookup nameTf = some tFine.toInt) (hrh : h.names.lookup nameRh = some (rawH.toNat : Int)) :
    runCommandLine h { verb := .comph, operands := [.name nameTf, .name nameRh], binds := [nH] } =
      .ok ({ block := h.block.deliver (humidityResponse (humOutput (humChain h.block.config.humForm c tFine rawH))),
             names := (nH, ((humOutput (humChain h.block.config.humForm c tFine rawH)).toNat : Int)) :: h.names },
        true) :=
  runCommandLine_of_ok (i := .comph tFine rawH) rfl (resolveOperands_two_names htf hrh) (by simp [LoadsStore])
    (by rw [hready, commandAnswer]) (by simp [Instr.op, resultFields]) rfl (resultFields_humidityResponse _)

end

/-- R89's second line in `Uninit`. -/
theorem runCommandLine_measure_compt_of_uninit {h : Session} (huninit : h.block.store = .uninit) {rawT : Word32}
    (nT : HostName) (hrt : h.names.lookup nameRt = some rawT.toInt) :
    runCommandLine h { verb := .compt, operands := [.name nameRt], binds := [nT, nameTf] } =
      .ok ({ block := h.block.deliver (errorRecord .rspT .notCalibrated), names := dropNames h.names [nT, nameTf] },
        false) :=
  runCommandLine_of_error (i := .compt rawT) rfl (resolveOperands_name hrt) (by simp [LoadsStore])
    (by rw [huninit, commandAnswer]) (by simp [Instr.op, resultFields]) (by decide)

end Sys2Proof.Machine
end

section
/-! `measure` whole (spec R89): its run on a Ready block and in `Uninit`, and what its names stand for afterwards. -/

namespace Sys2Proof.Machine

open Sys2Proof.Claims

/-! ## On a Ready block -/

/-- The four responses of `measure` on a Ready block, each of the last two with the fine-value of the second. -/
def measureResponses (s : State) (buf : List Byte) : List Record :=
  let tFine := tempFine s.coeffs (burstTemperature buf)
  [unpackResponse (burstPressure buf) (burstTemperature buf) (burstHumidity buf),
    temperatureResponse (tempOutput tFine) tFine,
    pressureResponse (presOutput s.coeffs tFine (burstPressure buf)),
    humidityResponse (humOutput (humChain s.config.humForm s.coeffs tFine (burstHumidity buf)))]

/-- The names its four lines bind, the newest first. -/
def measureBindings (s : State) (buf : List Byte) (nT nP nH : HostName) : List (HostName × Int) :=
  let tFine := tempFine s.coeffs (burstTemperature buf)
  [(nH, ((humOutput (humChain s.config.humForm s.coeffs tFine (burstHumidity buf))).toNat : Int)),
    (nP, ((presOutput s.coeffs tFine (burstPressure buf)).toNat : Int)), (nameTf, tFine.toInt),
    (nT, (tempOutput tFine).toInt)] ++ readingNames buf

/-- Each of the last three lines finds the readings and the fine-value under the names the lines before it bound, as no
host name hides them. -/
theorem runUntilError_measureLines {s : State} (names : List (HostName × Int)) {buf : List Byte} {nT nP : HostName}
    (nH : HostName) (hvalid : s.calibValid = true) (hlen : buf.length = 8) (hnT : isHostName nT = true)
    (hnP : isHostName nP = true) :
    runUntilError { block := s, names := names } (measureLines ((byteValues buf).map .number) nT nP nH) =
      .ok ({ block := { s with responses := s.responses ++ measureResponses s buf },
             names := measureBindings s buf nT nP nH ++ names }, true) := by
  have hT : ∀ m ∈ measureNames, m ≠ nT := fun m hm => (ne_of_isHostName hnT hm).symm
  have hP : ∀ m ∈ measureNames, m ≠ nP := fun m hm => (ne_of_isHostName hnP hm).symm
  have hready := State.store_of_ready s hvalid
  refine Eq.trans (runUntilError_cons_of_ok (runCommandLine_measure_unpack _ hlen) _) ?_
  refine Eq.trans (runUntilError_cons_of_ok (runCommandLine_measure_compt hready nT (rawT := burstTemperature buf) rfl) _) ?_
  refine Eq.trans (runUntilError_cons_of_ok (runCommandLine_measure_compp hready nP (rawP := burstPressure buf) rfl ?_) _) ?_
  · rw [lookup_cons_of_ne (by decide), lookup_cons_of_ne (hT _ (by decide))]
    rfl
  refine Eq.trans (runUntilError_cons_of_ok (runCommandLine_measure_comph hready nH
    (tFine := tempFine s.coeffs (burstTemperature buf)) (rawH := burstHumidity buf) ?_ ?_) _) ?_
  · rw [lookup_cons_of_ne (hP _ (by decide))]
    rfl
  · rw [lookup_cons_of_ne (hP _ (by decide)), lookup_cons_of_ne (by decide), lookup_cons_of_ne (hT _ (by decide))]
    rfl
  simp [runUntilError, State.deliver, measureResponses, measureBindings]

section
variable {s : State} {buf : List Byte} {nT nP nH : HostName} (names : List (HostName × Int))

/-- `H` takes HUM. -/
theorem lookup_measureBindings_nH :
    (measureBindings s buf nT nP nH ++ names).lookup nH =
      some ((humOutput (humChain s.config.humForm s.coeffs (tempFine s.coeffs (burstTemperature buf))
        (burstHumidity buf))).toNat : Int) :=
  List.lookup_cons_self

/-- `P` takes PRES. -/
theorem lookup_measureBindings_nP (hPH : nP ≠ nH) :
    (measureBindings s buf nT nP nH ++ names).lookup nP =
      some ((presOutput s.coeffs (tempFine s.coeffs (burstTemperature buf)) (burstPressure buf)).toNat : Int) :=
  (lookup_cons_of_ne hPH _ _).trans List.lookup_cons_self

/-- `T` takes TEMP. -/
theorem lookup_measureBindings_nT (hnT : isHostName nT = true) (hTP : nT ≠ nP) (hTH : nT ≠ nH) :
    (measureBindings s buf nT nP nH ++ names).lookup nT =
      some (tempOutput (tempFine s.coeffs (burstTemperature buf))).toInt := by
  have hTf : nT ≠ nameTf := ne_of_isHostName hnT (by decide)
  simp only [measureBindings, List.cons_append, lookup_cons_of_ne hTH, lookup_cons_of_ne hTP, lookup_cons_of_ne hTf,
    List.lookup_cons_self]

/-- Any other host name keeps its value. -/
theorem lookup_measureBindings_of_ne {n : HostName} (hn : isHostName n = true) (hT : n ≠ nT) (hP : n ≠ nP) (hH : n ≠ nH) :
    (measureBindings s buf nT nP nH ++ names).lookup n = names.lookup n := by
  have hinner : ∀ m ∈ measureNames, n ≠ m := fun m hm => ne_of_isHostName hn hm
  simp only [measureBindings, readingNames, List.cons_append, List.nil_append, lookup_cons_of_ne hH, lookup_cons_of_ne hP,
    lookup_cons_of_ne hT, lookup_cons_of_ne (hinner nameTf (by decide)), lookup_cons_of_ne (hinner nameRh (by decide)),
    lookup_cons_of_ne (hinner nameRt (by decide)), lookup_cons_of_ne (hinner nameRp (by decide))]

end

/-- R180, RAW_T as COMPT's operand. -/
theorem burstTemperature_eq (buf : List Byte) : burstTemperature buf = burstRawT buf := by
  rw [burstRawT, ← burstTemperature_toNat, BitVec.ofNat_toNat, BitVec.setWidth_eq]

/-- R180, RAW_P as COMPP's operand. -/
theorem burstPressure_eq (buf : List Byte) : burstPressure buf = burstRawP buf := by
  rw [burstRawP, ← burstPressure_toNat, BitVec.ofNat_toNat, BitVec.setWidth_eq]

/-- R180, RAW_H as COMPH's operand. -/
theorem burstHumidity_eq (buf : List Byte) : burstHumidity buf = burstRawH buf := by
  rw [burstRawH, ← burstHumidity_toNat, BitVec.ofNat_toNat, BitVec.setWidth_eq]

/-- R139: the fine-value as a word is the integer chain's. -/
theorem tempFine_eq_ofInt (c : Coeffs) (rawT : Word32) : tempFine c rawT = BitVec.ofInt 32 (fineOf c rawT) := by
  rw [← tempFine_toInt, BitVec.ofInt_toInt]

/-- Settles O51: the four lines run to their end, and the words they bind are the integer chains' values. -/
theorem measurePassesTheFineValueOn : Obligations.MeasurePassesTheFineValueOn := by
  intro s names ops buf nT nP nH hvalid _ hlen hops hnT hnP hnH hTP hTH hPH
  have hrun := runUntilError_measureLines names nH hvalid hlen hnT hnP
  have hkept : ∀ n, isHostName n = true → (dropNames (measureBindings s buf nT nP nH ++ names) measureNames).lookup n =
      (measureBindings s buf nT nP nH ++ names).lookup n :=
    fun n hn => lookup_dropNames_of_not_mem n _ _ (not_mem_measureNames n hn)
  refine ⟨_, measureResponses s buf, runLine_measure hops hlen hrun, rfl, rfl, ?_, ?_, ?_, fun n hn hT hP hH => ?_⟩
  · rw [if_pos rfl, hkept nT hnT, lookup_measureBindings_nT names hnT hTP hTH, tempOutput_toInt, tempFine_toInt,
      burstTemperature_eq]
  · rw [if_pos rfl, hkept nP hnP, lookup_measureBindings_nP names hPH, presOutput_toNat, tempFine_eq_ofInt,
      burstTemperature_eq, burstPressure_eq]
  · rw [if_pos rfl, hkept nH hnH, lookup_measureBindings_nH names, humOutput_toNat, humChain_toInt, ← humOf,
      tempFine_eq_ofInt, burstTemperature_eq, burstHumidity_eq]
  · rw [if_pos rfl, hkept n hn, lookup_measureBindings_of_ne names hn hT hP hH]

/-! ## In `Uninit` -/

/-- COMPT's answer stops the run: two responses, the second an error. -/
theorem runUntilError_measureLines_of_uninit {s : State} (names : List (HostName × Int)) {buf : List Byte}
    (nT nP nH : HostName) (hvalid : s.calibValid = false) (hlen : buf.length = 8) :
    ∃ names', runUntilError { block := s, names := names } (measureLines ((byteValues buf).map .number) nT nP nH) =
      .ok ({ block := { s with responses := s.responses ++
               [unpackResponse (burstPressure buf) (burstTemperature buf) (burstHumidity buf),
                 errorRecord .rspT .notCalibrated] },
             names := names' }, false) := by
  refine ⟨dropNames (readingNames buf ++ names) [nT, nameTf], ?_⟩
  refine Eq.trans (runUntilError_cons_of_ok (runCommandLine_measure_unpack _ hlen) _) ?_
  refine Eq.trans (runUntilError_cons_of_error (runCommandLine_measure_compt_of_uninit
    (State.store_of_uninit s hvalid) nT (rawT := burstTemperature buf) rfl) _) ?_
  simp [State.deliver]

/-- Settles O52: the run stops at COMPT, and then the three names are dropped from those bound before. -/
theorem measureStopsAtTheFirstError : Obligations.MeasureStopsAtTheFirstError := by
  intro s names ops buf nT nP nH hvalid _ hlen hops
  obtain ⟨names', hrun⟩ := runUntilError_measureLines_of_uninit names nT nP nH hvalid hlen
  refine ⟨_, _, _, runLine_measure hops hlen hrun, rfl, fieldOf_first _ _, fieldOf_first _ _, fun n hn => ?_,
    fun n hT hP hH => ?_⟩
  · exact lookup_dropNames_of_mem n names [nT, nP, nH] (by simpa using hn)
  · exact lookup_dropNames_of_not_mem n names [nT, nP, nH] (by simp [hT, hP, hH])

end Sys2Proof.Machine
end
